-- ==== Sys2Proof/Word.lean ====
section
/-! DEFINITION. The word types of the machine (00_scope.md R7, R10, R11): bytes, 16-bit words, the instruction
fields of 30_encoding.md R71, and the names of a register and of a key. -/

namespace Sys2Proof

/-- A byte: a register, a memory cell, a timer, the field nn (00_scope.md R7, R13). -/
abbrev Byte := BitVec 8

/-- A 16-bit word: an instruction word, the program counter, the index register, a stack entry (R7). -/
abbrev Word := BitVec 16

/-- A 4-bit slice of an instruction word, bit 0 the least significant (R10, R15 "Nibble"). -/
abbrev Nibble := BitVec 4

/-- The 12-bit address field nnn (R13, 30_encoding.md R73). -/
abbrev Addr := BitVec 12

/-- The number of a general register, V0 to VF (10_state.md R20; 30_encoding.md R74: every value is legal). -/
abbrev Reg := Fin 16

/-- The number of a key of the keypad, 0x0 to 0xF (10_state.md R34). -/
abbrev Key := Fin 16

end Sys2Proof
end

