-- ==== Sys2Proof/Syntax.lean ====
section
/-! DEFINITION. The instruction set: one constructor per row of spec/opcode_table.json, in the table's order
(30_encoding.md R75), with the fields its pattern names (R71 to R74). Register operands are `Reg`, so every
value of x and y is legal by type. -/

namespace Sys2Proof

/-- The 34 instructions of 30_encoding.md R75; the pattern stands beside each. -/
inductive Instr where
  | cls                              -- 00E0
  | ret                              -- 00EE
  | jp (nnn : Addr)                  -- 1nnn
  | call (nnn : Addr)                -- 2nnn
  | seImm (x : Reg) (nn : Byte)      -- 3xnn
  | sneImm (x : Reg) (nn : Byte)     -- 4xnn
  | seReg (x y : Reg)                -- 5xy0
  | ldImm (x : Reg) (nn : Byte)      -- 6xnn
  | addImm (x : Reg) (nn : Byte)     -- 7xnn
  | ldReg (x y : Reg)                -- 8xy0
  | orReg (x y : Reg)                -- 8xy1
  | andReg (x y : Reg)               -- 8xy2
  | xorReg (x y : Reg)               -- 8xy3
  | addReg (x y : Reg)               -- 8xy4
  | sub (x y : Reg)                  -- 8xy5
  | shr (x y : Reg)                  -- 8xy6 (y encoded and ignored)
  | subn (x y : Reg)                 -- 8xy7
  | shl (x y : Reg)                  -- 8xyE (y encoded and ignored)
  | sneReg (x y : Reg)               -- 9xy0
  | ldI (nnn : Addr)                 -- Annn
  | jpV0 (nnn : Addr)                -- Bnnn
  | rnd (x : Reg) (nn : Byte)        -- Cxnn
  | drw (x y : Reg) (n : Nibble)     -- Dxyn
  | skp (x : Reg)                    -- Ex9E
  | sknp (x : Reg)                   -- ExA1
  | ldVxDt (x : Reg)                 -- Fx07
  | ldVxK (x : Reg)                  -- Fx0A
  | ldDtVx (x : Reg)                 -- Fx15
  | ldStVx (x : Reg)                 -- Fx18
  | addIVx (x : Reg)                 -- Fx1E
  | ldFVx (x : Reg)                  -- Fx29
  | ldBVx (x : Reg)                  -- Fx33
  | storeVx (x : Reg)                -- Fx55
  | loadVx (x : Reg)                 -- Fx65
  deriving DecidableEq, Repr

end Sys2Proof
end

