-- ==== Sys2Proof/WellFormed.lean ====
section
/-! DEFINITION. Which 16-bit words are instructions: the match and mask table of 30_encoding.md R75, written out
apart from the decoder so that the two can be held against each other. The operands of an `Instr` need no check
of their own: every value of x, y, n, nn and nnn that its type admits is legal (R73, R74). -/

namespace Sys2Proof

/-- A row of the opcode map of 30_encoding.md R75: a word `op` selects it when `op &&& mask = pat`. -/
structure OpcodeRow where
  pattern : String
  pat : Word
  mask : Word
  deriving DecidableEq, Repr

/-- The row selects the word (R75: "a word selects the row when `(op & mask) = match`"). -/
def OpcodeRow.selects (r : OpcodeRow) (op : Word) : Bool := op &&& r.mask == r.pat

/-- The opcode map of R75, row by row. -/
def opcodeRows : List OpcodeRow :=
  [⟨"00E0", 0x00E0, 0xFFFF⟩, ⟨"00EE", 0x00EE, 0xFFFF⟩,
   ⟨"1nnn", 0x1000, 0xF000⟩, ⟨"2nnn", 0x2000, 0xF000⟩,
   ⟨"3xnn", 0x3000, 0xF000⟩, ⟨"4xnn", 0x4000, 0xF000⟩] ++
  [⟨"5xy0", 0x5000, 0xF00F⟩, ⟨"6xnn", 0x6000, 0xF000⟩,
   ⟨"7xnn", 0x7000, 0xF000⟩, ⟨"8xy0", 0x8000, 0xF00F⟩,
   ⟨"8xy1", 0x8001, 0xF00F⟩, ⟨"8xy2", 0x8002, 0xF00F⟩] ++
  [⟨"8xy3", 0x8003, 0xF00F⟩, ⟨"8xy4", 0x8004, 0xF00F⟩,
   ⟨"8xy5", 0x8005, 0xF00F⟩, ⟨"8xy6", 0x8006, 0xF00F⟩,
   ⟨"8xy7", 0x8007, 0xF00F⟩, ⟨"8xyE", 0x800E, 0xF00F⟩] ++
  [⟨"9xy0", 0x9000, 0xF00F⟩, ⟨"Annn", 0xA000, 0xF000⟩,
   ⟨"Bnnn", 0xB000, 0xF000⟩, ⟨"Cxnn", 0xC000, 0xF000⟩,
   ⟨"Dxyn", 0xD000, 0xF000⟩, ⟨"Ex9E", 0xE09E, 0xF0FF⟩] ++
  [⟨"ExA1", 0xE0A1, 0xF0FF⟩, ⟨"Fx07", 0xF007, 0xF0FF⟩,
   ⟨"Fx0A", 0xF00A, 0xF0FF⟩, ⟨"Fx15", 0xF015, 0xF0FF⟩,
   ⟨"Fx18", 0xF018, 0xF0FF⟩, ⟨"Fx1E", 0xF01E, 0xF0FF⟩] ++
  [⟨"Fx29", 0xF029, 0xF0FF⟩, ⟨"Fx33", 0xF033, 0xF0FF⟩,
   ⟨"Fx55", 0xF055, 0xF0FF⟩, ⟨"Fx65", 0xF065, 0xF0FF⟩]

/-- A well-formed instruction word: some row of R75 selects it. Every other word is an unknown opcode (R77). -/
def definedWord (op : Word) : Bool := opcodeRows.any fun r => r.selects op

end Sys2Proof
end

