-- ==== Sys2Proof/Decode.lean ====
section
/-! DEFINITION. The decoder (30_encoding.md R70 to R78, R82), total on 16-bit words, and the encoder. -/

namespace Sys2Proof

/-! ### Byte order (20_memory.md R56) -/

/-- A word from its two bytes in memory order: the byte at the lower address is the high one (R56, R81). -/
def joinBytes (hi lo : Byte) : Word := hi ++ lo

/-- The byte of a word that lies at the lower address (R56). -/
def highByte (w : Word) : Byte := w.extractLsb' 8 8

/-- The byte of a word that lies at the higher address (R56). -/
def lowByte (w : Word) : Byte := w.extractLsb' 0 8

/-! ### Fields (R71) -/

/-- The class nibble `c = op[15:12]`. -/
def fieldC (op : Word) : Nibble := op.extractLsb' 12 4

/-- `x = op[11:8]`. -/
def fieldX (op : Word) : Reg := (op.extractLsb' 8 4).toFin

/-- `y = op[7:4]`. -/
def fieldY (op : Word) : Reg := (op.extractLsb' 4 4).toFin

/-- `n = op[3:0]`. -/
def fieldN (op : Word) : Nibble := op.extractLsb' 0 4

/-- `nn = op[7:0]`. -/
def fieldNN (op : Word) : Byte := op.extractLsb' 0 8

/-- `nnn = op[11:0]`. -/
def fieldNNN (op : Word) : Addr := op.extractLsb' 0 12

/-! ### Decoding -/

/-- What a word decodes to (R82: "every 16-bit word decodes either to one instruction with its fields or to
`Unknown(op)`"). -/
inductive Decoded where
  | instr (i : Instr)
  | unknown (op : Word)
  deriving DecidableEq, Repr

/-- Class 0: the two words 00E0 and 00EE; every other is unknown (R77, conflict C1). -/
def decodeSys (op : Word) : Decoded :=
  if op = 0x00E0 then .instr .cls
  else if op = 0x00EE then .instr .ret
  else .unknown op

/-- Class 8: the operation is the low nibble, decoded exactly (R76). -/
def decodeAlu (op : Word) : Decoded :=
  match (fieldN op).toNat with
  | 0x0 => .instr (.ldReg (fieldX op) (fieldY op))
  | 0x1 => .instr (.orReg (fieldX op) (fieldY op))
  | 0x2 => .instr (.andReg (fieldX op) (fieldY op))
  | 0x3 => .instr (.xorReg (fieldX op) (fieldY op))
  | 0x4 => .instr (.addReg (fieldX op) (fieldY op))
  | 0x5 => .instr (.sub (fieldX op) (fieldY op))
  | 0x6 => .instr (.shr (fieldX op) (fieldY op))
  | 0x7 => .instr (.subn (fieldX op) (fieldY op))
  | 0xE => .instr (.shl (fieldX op) (fieldY op))
  | _ => .unknown op

/-- Class E: the operation is the low byte (R75, R76). -/
def decodeKey (op : Word) : Decoded :=
  match (fieldNN op).toNat with
  | 0x9E => .instr (.skp (fieldX op))
  | 0xA1 => .instr (.sknp (fieldX op))
  | _ => .unknown op

/-- Class F: the operation is the low byte (R75, R76). -/
def decodeMisc (op : Word) : Decoded :=
  match (fieldNN op).toNat with
  | 0x07 => .instr (.ldVxDt (fieldX op))
  | 0x0A => .instr (.ldVxK (fieldX op))
  | 0x15 => .instr (.ldDtVx (fieldX op))
  | 0x18 => .instr (.ldStVx (fieldX op))
  | 0x1E => .instr (.addIVx (fieldX op))
  | 0x29 => .instr (.ldFVx (fieldX op))
  | 0x33 => .instr (.ldBVx (fieldX op))
  | 0x55 => .instr (.storeVx (fieldX op))
  | 0x65 => .instr (.loadVx (fieldX op))
  | _ => .unknown op

/-- The decoder: dispatch on the nibbles of the word (R75, R82). The last arm is class F, the only class nibble
left. -/
def decode (op : Word) : Decoded :=
  match (fieldC op).toNat with
  | 0x0 => decodeSys op
  | 0x1 => .instr (.jp (fieldNNN op))
  | 0x2 => .instr (.call (fieldNNN op))
  | 0x3 => .instr (.seImm (fieldX op) (fieldNN op))
  | 0x4 => .instr (.sneImm (fieldX op) (fieldNN op))
  | 0x5 => if fieldN op = 0 then .instr (.seReg (fieldX op) (fieldY op)) else .unknown op
  | 0x6 => .instr (.ldImm (fieldX op) (fieldNN op))
  | 0x7 => .instr (.addImm (fieldX op) (fieldNN op))
  | 0x8 => decodeAlu op
  | 0x9 => if fieldN op = 0 then .instr (.sneReg (fieldX op) (fieldY op)) else .unknown op
  | 0xA => .instr (.ldI (fieldNNN op))
  | 0xB => .instr (.jpV0 (fieldNNN op))
  | 0xC => .instr (.rnd (fieldX op) (fieldNN op))
  | 0xD => .instr (.drw (fieldX op) (fieldY op) (fieldN op))
  | 0xE => decodeKey op
  | _ => decodeMisc op

/-- The decoder on the two bytes of an instruction in memory order (R56, R81). -/
def decodeBytes (first second : Byte) : Decoded := decode (joinBytes first second)

/-- What the decoder reads from an opcode-table word: `w`'s bits as spec/opcode_table.json numbers them, laid out
as the hardware stores the one 16-bit word (its high byte first, R56). -/
def decodeTableWord (nbits w : Nat) : Option Instr :=
  let op : Word := BitVec.ofNat 16 (w % 2 ^ nbits)
  match decodeBytes (highByte op) (lowByte op) with
  | .instr i => some i
  | .unknown _ => none

/-! ### Encoding: the six formats of R72 -/

/-- Format `A`: class and address. -/
def encA (c : Nibble) (nnn : Addr) : Word := c ++ nnn

/-- Format `XB`: class, register, byte; also format `X`, whose byte is the fixed sub-operation. -/
def encXB (c : Nibble) (x : Reg) (nn : Byte) : Word := (c ++ BitVec.ofFin (w := 4) x ++ nn : BitVec 16)

/-- Format `XYN`: class, two registers, nibble; also format `XY`, whose nibble is the fixed sub-operation. -/
def encXYN (c : Nibble) (x y : Reg) (n : Nibble) : Word :=
  (c ++ BitVec.ofFin (w := 4) x ++ BitVec.ofFin (w := 4) y ++ n : BitVec 16)

/-- The word of an instruction (R72, R75). -/
def encode : Instr → Word
  | .cls => 0x00E0
  | .ret => 0x00EE
  | .jp nnn => encA 0x1 nnn
  | .call nnn => encA 0x2 nnn
  | .seImm x nn => encXB 0x3 x nn
  | .sneImm x nn => encXB 0x4 x nn
  | .seReg x y => encXYN 0x5 x y 0x0
  | .ldImm x nn => encXB 0x6 x nn
  | .addImm x nn => encXB 0x7 x nn
  | .ldReg x y => encXYN 0x8 x y 0x0
  | .orReg x y => encXYN 0x8 x y 0x1
  | .andReg x y => encXYN 0x8 x y 0x2
  | .xorReg x y => encXYN 0x8 x y 0x3
  | .addReg x y => encXYN 0x8 x y 0x4
  | .sub x y => encXYN 0x8 x y 0x5
  | .shr x y => encXYN 0x8 x y 0x6
  | .subn x y => encXYN 0x8 x y 0x7
  | .shl x y => encXYN 0x8 x y 0xE
  | .sneReg x y => encXYN 0x9 x y 0x0
  | .ldI nnn => encA 0xA nnn
  | .jpV0 nnn => encA 0xB nnn
  | .rnd x nn => encXB 0xC x nn
  | .drw x y n => encXYN 0xD x y n
  | .skp x => encXB 0xE x 0x9E
  | .sknp x => encXB 0xE x 0xA1
  | .ldVxDt x => encXB 0xF x 0x07
  | .ldVxK x => encXB 0xF x 0x0A
  | .ldDtVx x => encXB 0xF x 0x15
  | .ldStVx x => encXB 0xF x 0x18
  | .addIVx x => encXB 0xF x 0x1E
  | .ldFVx x => encXB 0xF x 0x29
  | .ldBVx x => encXB 0xF x 0x33
  | .storeVx x => encXB 0xF x 0x55
  | .loadVx x => encXB 0xF x 0x65

end Sys2Proof
end

