-- ==== Sys2Proof/Config.lean ====
section
/-! DEFINITION. The block's parameters (00_scope.md R7) and its one free value (rand_byte). -/

namespace Sys2Proof.Config

/-- The largest valid address: `MEM_SIZE` is 4096 bytes, addresses 0x000..0xFFF (R7, 20_memory.md R50). -/
abbrev memTop : Nat := 0xFFF

/-- `PROG_BASE`: where the loader places a program and where the first cycle fetches (R7, 70_reset_and_hazards.md R241). -/
abbrev progBase : Nat := 0x200

/-- `MAX_ROM`: the longest program `load` accepts (R7, 70_reset_and_hazards.md R243). -/
abbrev maxRom : Nat := 3584

/-- `SUB_NOBORROW_VF`: what `8xy5` and `8xy7` write to VF when there is no borrow. The spec fixes 1 for this
hardware (43_alu.md R149, decision D2; the original code wrote 2). DESIGN CHOICE of the spec, log 3. Unsafe. -/
def subNoBorrowVF : Byte := 1

/-- `FONT`: the 80 bytes of the font table, five for each digit 0 to F, at the spec's default values
(10_state.md R45, decision D12). The spec takes the bytes from general knowledge. PRESUMED, log 2. Unsafe. -/
def font : List Byte :=
  [0xF0, 0x90, 0x90, 0x90, 0xF0,  0x20, 0x60, 0x20, 0x20, 0x70] ++
  [0xF0, 0x10, 0xF0, 0x80, 0xF0,  0xF0, 0x10, 0xF0, 0x10, 0xF0] ++
  [0x90, 0x90, 0xF0, 0x10, 0x10,  0xF0, 0x80, 0xF0, 0x10, 0xF0] ++
  [0xF0, 0x80, 0xF0, 0x90, 0xF0,  0xF0, 0x10, 0x20, 0x40, 0x40] ++
  [0xF0, 0x90, 0xF0, 0x90, 0xF0,  0xF0, 0x90, 0xF0, 0x10, 0xF0] ++
  [0xF0, 0x90, 0xF0, 0x90, 0x90,  0xE0, 0x90, 0xE0, 0x90, 0xE0] ++
  [0xF0, 0x80, 0x80, 0x80, 0xF0,  0xE0, 0x90, 0x90, 0x90, 0xE0] ++
  [0xF0, 0x80, 0xF0, 0x80, 0xF0,  0xF0, 0x80, 0xF0, 0x80, 0x80]

/-- `rand_byte`: the byte the k-th random draw of a run gives, any value 0..255, with no law relating draws
(00_scope.md R8, 10_state.md R39, 43_alu.md R156, decision D16). A FREE VALUE: it has no body, so nothing can
be proved of it. DESIGN CHOICE, log 1. -/
opaque randByte : Nat → Byte

end Sys2Proof.Config
end

