-- ==== Sys2Proof/Machine/State.lean ====
section
/-! DEFINITION. The machine's state, every item of 10_state.md R19, as plain data; the fatal errors of
60_exceptions.md R213; and the state after reset (70_reset_and_hazards.md R240). -/

namespace Sys2Proof.Machine

/-- How an access reached memory; recorded by `MemoryOutOfBounds` (60_exceptions.md R213). -/
inductive AccessKind where
  | fetch
  | read
  | write
  deriving DecidableEq, Repr

/-- The block's fatal errors (60_exceptions.md R213), with the information each records. A cycle that raises one
TAKES it: the step answers a NEXT state whose `fault` field holds it (R212). No step answers `Outcome.fault`, which
would drop the state that R212 gives (log 4, log 27); that is exact, neither safe nor unsafe. -/
inductive Fault where
  /-- Raised by the fetch, `Dxyn`, `Fx33`, `Fx55` and `Fx65` on an address above 0xFFF (R214): the first invalid
  address, an unbounded integer, and the kind of access. Safe: the spec's own behaviour. -/
  | memoryOutOfBounds (addr : Nat) (kind : AccessKind)
  /-- Raised by `2nnn` with SP = 16 (R215): the address of the `2nnn`. Safe: the spec's own behaviour. -/
  | stackOverflow (pc : Word)
  /-- Raised by `00EE` with SP = 0 (R216): the address of the `00EE`. Safe: the spec's own behaviour. -/
  | stackUnderflow (pc : Word)
  /-- Raised by `Ex9E` and `ExA1` with Vx > 0xF (R217): the value of Vx. Safe (decision D8, log 8). -/
  | keyOutOfRange (vx : Byte)
  deriving DecidableEq, Repr

/-- Why an instruction has no meaning. -/
inductive Refusal where
  /-- Raised only by an arm of `exec` whose instruction is not modelled yet. No arm raises it now. Safe. -/
  | notModelled (mnemonic : String)
  deriving DecidableEq, Repr

/-- Memory: the bytes that differ from what an unlisted address reads as, by strictly rising address (log 18). -/
abbrev Memory := List Host.Cell

/-- The framebuffer: 32 rows of 64 one-bit cells, row `cy`, column `cx`, true = on (10_state.md R32, R33, log 17). -/
abbrev Framebuffer := Vector (Vector Bool 64) 32

/-- The block's complete state (10_state.md R19), and the model's own `draws`. -/
structure State where
  /-- `Mem[0x000..0xFFF]` (20_memory.md R50), as its differences from the reset contents. -/
  mem : Memory
  /-- `V[0..15]` (10_state.md R20); `V[15]` is VF, the flag (R21). -/
  v : Vector Byte 16
  /-- The index register I (R24). -/
  i : Word
  /-- The program counter PC (R25). -/
  pc : Word
  /-- `Stack[0..15]` (R27), stale slots included (R37). -/
  stack : Vector Word 16
  /-- The stack pointer SP, the number of live entries, 0..16 (R28, conflict C2). -/
  sp : Fin 17
  /-- The delay timer DT (R30). -/
  dt : Byte
  /-- The sound timer ST (R31). -/
  st : Byte
  /-- `FB[0..63, 0..31]` (R32). -/
  fb : Framebuffer
  /-- `Keys[0..15]`, true = down (R34). -/
  keys : Vector Bool 16
  /-- `Fault`: none, or the recorded fatal error (R38). -/
  fault : Option Fault
  /-- The model's own field: how many random bytes have been drawn. It only chooses the next uninterpreted byte
  `Config.randByte` (R39). DESIGN CHOICE, log 1. -/
  draws : Nat
  deriving DecidableEq, Repr

/-- The machine right after reset (70_reset_and_hazards.md R240): memory at its reset contents, PC at the entry
point 0x200 (R241), all else zero, off, released or none. I, the framebuffer and the keypad are the spec's decision
D11 (DESIGN CHOICE, log 5, unsafe); `draws` is the model's own (log 1). -/
def State.reset : State where
  mem := []
  v := Vector.replicate 16 0
  i := 0
  pc := 0x200
  stack := Vector.replicate 16 0
  sp := 0
  dt := 0
  st := 0
  fb := Vector.replicate 32 (Vector.replicate 64 false)
  keys := Vector.replicate 16 false
  fault := none
  draws := 0

end Sys2Proof.Machine
end

