-- ==== Sys2Proof/Machine/Memory.lean ====
section
/-! DEFINITION. Memory as a list of (address, byte) pairs in one canonical form: reading, writing, and the form
itself (20_memory.md R50, R56; log 18). Address checks are in Machine/Ops.lean. -/

namespace Sys2Proof.Machine

/-- What an address that memory does not list reads as: its reset contents, the font table at 0x000..0x04F and 0
elsewhere (20_memory.md R50, 10_state.md R45, 70_reset_and_hazards.md R240). -/
def Memory.unlisted (a : Nat) : Byte := Config.font.getD a 0

/-- The byte at an address. -/
def Memory.read (m : Memory) (a : Nat) : Byte :=
  match m with
  | [] => Memory.unlisted a
  | (c, d) :: m => if a = c then d else Memory.read m a

/-- Put a cell at the head of a memory whose listed addresses are above it, unless the byte is what the address
reads as unlisted. -/
def Memory.cons (a : Nat) (b : Byte) (m : Memory) : Memory :=
  if b = Memory.unlisted a then m else (a, b) :: m

/-- Write one byte, keeping the canonical form. -/
def Memory.write (m : Memory) (a : Nat) (b : Byte) : Memory :=
  match m with
  | [] => Memory.cons a b []
  | (c, d) :: m =>
    if a < c then Memory.cons a b ((c, d) :: m)
    else if a = c then Memory.cons a b m
    else (c, d) :: Memory.write m a b

/-- Write bytes at consecutive rising addresses from `a` (20_memory.md R59). -/
def Memory.writeBytes (m : Memory) (a : Nat) (bs : List Byte) : Memory :=
  match bs with
  | [] => m
  | b :: bs => Memory.writeBytes (Memory.write m a b) (a + 1) bs

/-- The canonical form above a bound: listed addresses rise strictly, start at `lo` or later, lie in the address
space, and no listed byte is what its address reads as unlisted. -/
def Memory.wfFrom (lo : Nat) : Memory → Bool
  | [] => true
  | (a, b) :: m => lo ≤ a && a ≤ Config.memTop && b != Memory.unlisted a && Memory.wfFrom (a + 1) m

/-- Memory is in its canonical form. -/
def Memory.wf (m : Memory) : Bool := Memory.wfFrom 0 m

end Sys2Proof.Machine
end

