-- ==== Sys2Proof/Machine/Ops.lean ====
section
/-! DEFINITION. The named operations over registers, memory, stack, timers and keypad (00_scope.md R12), raising a
fatal error (60_exceptions.md R212), and the steps of the cycle around the instruction (30_encoding.md R80). -/

namespace Sys2Proof.Machine

/-- What an instruction's meaning answers. -/
abbrev Answer := Host.Outcome State Fault Refusal

/-! ### General registers (10_state.md R20 to R22) -/

/-- `V[x]`. -/
def State.reg (s : State) (x : Reg) : Byte := s.v[x]

/-- `V[x] <- b`. -/
def State.setReg (s : State) (x : Reg) (b : Byte) : State := { s with v := s.v.set x.val b x.isLt }

/-- `V[x] <- result`, and then `V[15] <- flag`: the result first and the flag last, so that for x = 0xF VF ends as
the flag (R22, 43_alu.md R140, decision D4). DESIGN CHOICE of the spec, log 6. Unsafe. -/
def State.setRegFlag (s : State) (x : Reg) (result flag : Byte) : State := (s.setReg x result).setReg 15 flag

/-- `V[k], V[k+1], ... <- bs` (44_index_memory.md R177); a byte past VF would have no register. -/
def State.setRegsFrom (s : State) (k : Nat) (bs : List Byte) : State :=
  match bs with
  | [] => s
  | b :: bs => State.setRegsFrom { s with v := s.v.setIfInBounds k b } (k + 1) bs

/-! ### Index register and program counter (10_state.md R24, R25) -/

/-- `I <- w`. -/
def State.setI (s : State) (w : Word) : State := { s with i := w }

/-- `PC <- target` (42_control_flow.md R120: not checked when written). -/
def State.jump (s : State) (target : Word) : State := { s with pc := target }

/-- Step 3 of the cycle: `PC <- PC + 2` (30_encoding.md R83). -/
def State.advance (s : State) : State := { s with pc := s.pc + 2 }

/-- A taken skip adds 2 to the advanced PC (42_control_flow.md R128). -/
def State.skip (s : State) : State := { s with pc := s.pc + 2 }

/-- The address of the instruction that is executing: the advanced PC less 2 (R83). -/
def State.instrAddr (s : State) : Word := s.pc - 2

/-! ### Fatal errors (60_exceptions.md R212, R221) -/

/-- Take a fatal error in the cycle of the instruction at `addr`: the PC is left at that address and the error is
recorded. Every raise comes before the first write of its instruction, so the PC advance is all there is to undo
(R212, R221, decision D6; log 4). -/
def State.takeFault (s : State) (addr : Word) (f : Fault) : State := { s with pc := addr, fault := some f }

/-- `raise f`, from an instruction's rule (R12): the fatal error is taken in the cycle of that instruction. -/
def raise (s : State) (f : Fault) : Answer := .next (s.takeFault s.instrAddr f)

/-- The code of an error kind (R213, decision D7: labels only). -/
def Fault.code : Fault → Nat
  | .memoryOutOfBounds _ _ => 1
  | .stackOverflow _ => 2
  | .stackUnderflow _ => 3
  | .keyOutOfRange _ => 4

/-! ### Memory through the address decoder (20_memory.md R51, R58, R59) -/

/-- The byte at an address, as it stands in memory. -/
def State.byteAt (s : State) (a : Nat) : Byte := s.mem.read a

/-- The addresses of a block of `len` bytes at `base`: unbounded integers, never reduced (R51, decision D15). -/
def blockAddrs (base len : Nat) : List Nat := (List.range len).map (base + ·)

/-- The address decoder on a block: the error of the lowest invalid address, if there is one (R51,
44_index_memory.md R175). -/
def checkBlock (base len : Nat) (kind : AccessKind) : Option Fault :=
  ((blockAddrs base len).find? (Config.memTop < ·)).map (.memoryOutOfBounds · kind)

/-- `MemRead` of every byte of a block, after the check of every address (R12, R58, R175). -/
def State.readBlock (s : State) (base len : Nat) (kind : AccessKind) : Except Fault (List Byte) :=
  match checkBlock base len kind with
  | some f => .error f
  | none => .ok ((blockAddrs base len).map s.byteAt)

/-- `MemWrite` of every byte of a block, after the check of every address: all or nothing (R12, R58, R175). -/
def State.writeBlock (s : State) (base : Nat) (bs : List Byte) : Except Fault State :=
  match checkBlock base bs.length .write with
  | some f => .error f
  | none => .ok { s with mem := s.mem.writeBytes base bs }

/-! ### Call stack (10_state.md R29) -/

/-- Push: `if SP = 16 then raise StackOverflow; Stack[SP] <- w; SP <- SP + 1`. -/
def State.push (s : State) (w : Word) : Except Fault State :=
  if h : s.sp.val < 16 then
    .ok { s with stack := s.stack.set s.sp.val w h, sp := ⟨s.sp.val + 1, by omega⟩ }
  else .error (.stackOverflow s.instrAddr)

/-- Pop: `if SP = 0 then raise StackUnderflow; SP <- SP - 1`, and `Stack[SP]`, which keeps its value (R37). -/
def State.pop (s : State) : Except Fault (Word × State) :=
  if h : 0 < s.sp.val then
    .ok (s.stack[s.sp.val - 1]'(by omega), { s with sp := ⟨s.sp.val - 1, by omega⟩ })
  else .error (.stackUnderflow s.instrAddr)

/-! ### Timers (10_state.md R30, R31; 60_exceptions.md R222, R223) -/

/-- `DT <- b`. -/
def State.setDt (s : State) (b : Byte) : State := { s with dt := b }

/-- `ST <- b`. -/
def State.setSt (s : State) (b : Byte) : State := { s with st := b }

/-- One timer's decrement: `if T > 0 then T <- T - 1` (R222). -/
def tickDown (t : Byte) : Byte := if t = 0 then 0 else t - 1

/-- Step 5 of the cycle: both timers decrement (R222). -/
def State.tick (s : State) : State := { s with dt := tickDown s.dt, st := tickDown s.st }

/-- `sound_tick` of a completed cycle: ST is exactly 1 at the instant before the decrement (R223). -/
def State.soundTick (s : State) : Bool := s.st == 1

/-! ### Keypad (10_state.md R34) -/

/-- `KeyDown(k)`. -/
def State.keyDown (s : State) (k : Key) : Bool := s.keys[k]

/-- `any_pressed()`: the lowest-indexed key that is down, or none (R34, 45_keypad_timers.md R195). -/
def State.anyPressed (s : State) : Option Key := (List.finRange 16).find? fun k => s.keyDown k

/-! ### Random byte (10_state.md R39) -/

/-- `RandByte()`: the next byte of the random input. DESIGN CHOICE, log 1. -/
def State.randByte (s : State) : Byte := Config.randByte s.draws

/-- The random byte has been used: the next draw is another one. -/
def State.nextDraw (s : State) : State := { s with draws := s.draws + 1 }

/-! ### Fetch (30_encoding.md R81) -/

/-- Step 1 of the cycle: `op <- Mem[PC] << 8 | Mem[PC+1]`, big-endian, each address checked (R80, R81). -/
def State.fetch (s : State) : Except Fault Word :=
  match checkBlock s.pc.toNat 2 .fetch with
  | some f => .error f
  | none => .ok (joinBytes (s.byteAt s.pc.toNat) (s.byteAt (s.pc.toNat + 1)))

end Sys2Proof.Machine
end

