-- ==== Sys2Proof/Machine/Flags.lean ====
section
/-! DEFINITION. Every value that an instruction writes to VF as a flag (10_state.md R21): carry, no-borrow, the bit
a shift moves out, and the collision. -/

namespace Sys2Proof.Machine

/-- A condition as the flag byte 1 or 0 (43_alu.md R147; 41_display.md R105 for the collision, decision D5, log 7). -/
def flagByte (c : Bool) : Byte := if c then 1 else 0

/-- The carry out of `a + b`: 1 iff the unsigned sum exceeds 255 (43_alu.md R147). -/
def carryFlag (a b : Byte) : Byte := flagByte (255 < a.toNat + b.toNat)

/-- The no-borrow flag of `a - b`: `noBorrowVF` iff a >= b, unsigned, else 0 (43_alu.md R148 to R150; decisions D2,
D3, log 3, log 19). The parameter is `SUB_NOBORROW_VF` of R149. -/
def noBorrowFlag (noBorrowVF a b : Byte) : Byte := if b.toNat ≤ a.toNat then noBorrowVF else 0

/-- The bit a right shift moves out: old bit 0 (43_alu.md R151). -/
def shiftRightFlag (a : Byte) : Byte := a &&& 1

/-- The bit a left shift moves out: old bit 7 (43_alu.md R154). -/
def shiftLeftFlag (a : Byte) : Byte := a >>> 7

end Sys2Proof.Machine
end

