-- ==== Sys2Proof/Machine/Alu.lean ====
section
/-! DEFINITION. Register loads and the 8-bit ALU (43_alu.md R140 to R156). Operands are read from the state before
any write, and a flag is committed last (R140). -/

namespace Sys2Proof.Machine

/-- `6xnn` LD: Vx <- nn (R141). -/
def execLdImm (x : Reg) (nn : Byte) (s : State) : Answer := .next (s.setReg x nn)

/-- `7xnn` ADD: Vx <- (Vx + nn) mod 256, no flag (R142). -/
def execAddImm (x : Reg) (nn : Byte) (s : State) : Answer := .next (s.setReg x (s.reg x + nn))

/-- `8xy0` LD: Vx <- Vy (R143). -/
def execLdReg (x y : Reg) (s : State) : Answer := .next (s.setReg x (s.reg y))

/-- `8xy1` OR: Vx <- Vx | Vy, VF not written as a flag (R144). -/
def execOr (x y : Reg) (s : State) : Answer := .next (s.setReg x (s.reg x ||| s.reg y))

/-- `8xy2` AND: Vx <- Vx & Vy, VF not written as a flag (R145). -/
def execAnd (x y : Reg) (s : State) : Answer := .next (s.setReg x (s.reg x &&& s.reg y))

/-- `8xy3` XOR: Vx <- Vx ^ Vy, VF not written as a flag (R146). -/
def execXor (x y : Reg) (s : State) : Answer := .next (s.setReg x (s.reg x ^^^ s.reg y))

/-- `8xy4` ADD: Vx <- (Vx + Vy) mod 256, VF <- carry (R147). -/
def execAddReg (x y : Reg) (s : State) : Answer :=
  .next (s.setRegFlag x (s.reg x + s.reg y) (carryFlag (s.reg x) (s.reg y)))

/-- `8xy5` SUB: Vx <- (Vx - Vy) mod 256, VF <- no borrow (R148). -/
def execSub (x y : Reg) (s : State) : Answer :=
  .next (s.setRegFlag x (s.reg x - s.reg y) (noBorrowFlag Config.subNoBorrowVF (s.reg x) (s.reg y)))

/-- `8xy6` SHR: Vx <- Vx >> 1, VF <- old bit 0 of Vx; y is ignored (R151). -/
def execShr (x _y : Reg) (s : State) : Answer :=
  .next (s.setRegFlag x (s.reg x >>> 1) (shiftRightFlag (s.reg x)))

/-- `8xy7` SUBN: Vx <- (Vy - Vx) mod 256, VF <- no borrow (R152). -/
def execSubn (x y : Reg) (s : State) : Answer :=
  .next (s.setRegFlag x (s.reg y - s.reg x) (noBorrowFlag Config.subNoBorrowVF (s.reg y) (s.reg x)))

/-- `8xyE` SHL: Vx <- (Vx << 1) mod 256, VF <- old bit 7 of Vx; y is ignored (R154). -/
def execShl (x _y : Reg) (s : State) : Answer :=
  .next (s.setRegFlag x (s.reg x <<< 1) (shiftLeftFlag (s.reg x)))

/-- `Cxnn` RND: Vx <- random byte & nn (R156). The random byte is a free value (log 1). -/
def execRnd (x : Reg) (nn : Byte) (s : State) : Answer := .next ((s.setReg x (s.randByte &&& nn)).nextDraw)

end Sys2Proof.Machine
end

