-- ==== Sys2Proof/Machine/Operands.lean ====
section
/-! DEFINITION. The operand forms: zero-extended immediates and registers (30_encoding.md R73, R74), the target of
`Bnnn`, a key number (45_keypad_timers.md R192), the condition of a skip, and the data of the block transfers
(44_index_memory.md R174, R176). -/

namespace Sys2Proof.Machine

/-- `zext_16(nnn)`: an address operand as a 16-bit value (30_encoding.md R73). -/
def addrOperand (nnn : Addr) : Word := nnn.setWidth 16

/-- `zext_16(b)`: a byte that meets a 16-bit value (R73). -/
def byteOperand (b : Byte) : Word := b.setWidth 16

/-- The target of `Bnnn`: `zext_16(nnn) + zext_16(V[0])`, at most 0x10FE and not reduced modulo 4096
(42_control_flow.md R129). -/
def indexedTarget (s : State) (nnn : Addr) : Word := addrOperand nnn + byteOperand (s.reg 0)

/-- The address of the font glyph of a digit: `zext_16(b) * 5`, not masked to a nibble (44_index_memory.md R173). -/
def glyphAddr (b : Byte) : Word := byteOperand b * 5

/-- A register value as a key number, or `KeyOutOfRange` above 0xF (45_keypad_timers.md R192, decision D8).
DESIGN CHOICE of the spec, log 8. Safe. -/
def keyOperand (b : Byte) : Except Fault Key :=
  if h : b.toNat < 16 then .ok ⟨b.toNat, h⟩ else .error (.keyOutOfRange b)

/-- Skip the next instruction if the condition holds (42_control_flow.md R128). -/
def skipIf (c : Bool) (s : State) : State := if c then s.skip else s

/-- The decimal digits of a byte, hundreds first (44_index_memory.md R174). -/
def bcdDigits (b : Byte) : List Byte := [b / 100, b / 10 % 10, b % 10]

/-- `V[0], ..., V[x]`, what `Fx55` stores (44_index_memory.md R176). -/
def regsUpTo (s : State) (x : Reg) : List Byte := s.v.toList.take (x.val + 1)

end Sys2Proof.Machine
end

