-- ==== Sys2Proof/Machine/Control.lean ====
section
/-! DEFINITION. Control transfer: return, jump, call, skips and the indexed jump (42_control_flow.md R120 to R130).
`s.pc` is the advanced PC (30_encoding.md R83). -/

namespace Sys2Proof.Machine

/-- `00EE` RET: pop the stack into PC, or StackUnderflow at SP = 0 (R121). -/
def execRet (s : State) : Answer :=
  match s.pop with
  | .error f => raise s f
  | .ok (target, t) => .next (t.jump target)

/-- `1nnn` JP: PC <- nnn (R122). -/
def execJp (nnn : Addr) (s : State) : Answer := .next (s.jump (addrOperand nnn))

/-- `2nnn` CALL: push the advanced PC, PC <- nnn, or StackOverflow at SP = 16 (R123). -/
def execCall (nnn : Addr) (s : State) : Answer :=
  match s.push s.pc with
  | .error f => raise s f
  | .ok t => .next (t.jump (addrOperand nnn))

/-- `3xnn` SE: skip if Vx = nn (R124). -/
def execSeImm (x : Reg) (nn : Byte) (s : State) : Answer := .next (skipIf (s.reg x == nn) s)

/-- `4xnn` SNE: skip if Vx differs from nn (R125). -/
def execSneImm (x : Reg) (nn : Byte) (s : State) : Answer := .next (skipIf (s.reg x != nn) s)

/-- `5xy0` SE: skip if Vx = Vy (R126). -/
def execSeReg (x y : Reg) (s : State) : Answer := .next (skipIf (s.reg x == s.reg y) s)

/-- `9xy0` SNE: skip if Vx differs from Vy (R127). -/
def execSneReg (x y : Reg) (s : State) : Answer := .next (skipIf (s.reg x != s.reg y) s)

/-- `Bnnn` JP V0: PC <- nnn + V0 (R129). -/
def execJpV0 (nnn : Addr) (s : State) : Answer := .next (s.jump (indexedTarget s nnn))

end Sys2Proof.Machine
end

