-- ==== Sys2Proof/Machine/Display.lean ====
section
/-! DEFINITION. The display instructions: `00E0` and `Dxyn`, with the sprite XOR compositor and its collision
detector (41_display.md R100 to R107). -/

namespace Sys2Proof.Machine

/-- The cell at column `cx`, row `cy` of a framebuffer (10_state.md R32). -/
def cellOf (fb : Framebuffer) (cx : Fin 64) (cy : Fin 32) : Bool := (fb.get cy).get cx

/-- `FB[cx, cy]` (10_state.md R32). -/
def State.cell (s : State) (cx : Fin 64) (cy : Fin 32) : Bool := cellOf s.fb cx cy

/-- `FB[cx, cy] <- 1 XOR FB[cx, cy]`. -/
def flipCell (fb : Framebuffer) (cx : Fin 64) (cy : Fin 32) : Framebuffer :=
  fb.set cy.val ((fb.get cy).set cx.val (!cellOf fb cx cy) cx.isLt) cy.isLt

/-- The column of pixel `i` of a sprite row drawn from `Vx`: `(Vx + i) mod 64` (41_display.md R102). -/
def spriteColumn (vx : Byte) (i : Nat) : Fin 64 := Fin.ofNat 64 (vx.toNat + i)

/-- The row of sprite row `j` drawn from `Vy`: `(Vy + j) mod 32` (R102). -/
def spriteRow (vy : Byte) (j : Nat) : Fin 32 := Fin.ofNat 32 (vy.toNat + j)

/-- Bit `i` of a sprite row, `i = 0` the most significant: `(row >> (7 - i)) & 1` (R101). -/
def spriteBit (row : Byte) (i : Nat) : Bool := row.getMsbD i

/-- A framebuffer being drawn on, and whether a set bit has met an on cell so far (R104). -/
abbrev Drawing := Framebuffer × Bool

/-- The body of the loop of R101 for pixel `i` of row `j`: a set bit notes the collision and flips its cell; a clear
bit leaves the cell. -/
def drawPixel (vx vy row : Byte) (j : Nat) (d : Drawing) (i : Nat) : Drawing :=
  if spriteBit row i then
    (flipCell d.1 (spriteColumn vx i) (spriteRow vy j), d.2 || cellOf d.1 (spriteColumn vx i) (spriteRow vy j))
  else d

/-- The inner loop of R101: the eight pixels of row `j`, left to right. -/
def drawRow (vx vy row : Byte) (j : Nat) (d : Drawing) : Drawing :=
  (List.range 8).foldl (drawPixel vx vy row j) d

/-- The outer loop of R101: the rows from `j` on. -/
def drawRows (vx vy : Byte) (j : Nat) (rows : List Byte) (d : Drawing) : Drawing :=
  match rows with
  | [] => d
  | row :: rows => drawRows vx vy (j + 1) rows (drawRow vx vy row j d)

/-- `00E0` CLS: every cell off (R100). -/
def execCls (s : State) : Answer := .next { s with fb := Vector.replicate 32 (Vector.replicate 64 false) }

/-- `Dxyn` DRW: read n rows at I (R106), XOR them on the framebuffer from (Vx, Vy) with wrap-around (R102), VF <- the
collision (R105). Vx, Vy and the rows are read before any write (R107); with n = 0 no byte is read (R103). -/
def execDrw (x y : Reg) (n : Nibble) (s : State) : Answer :=
  match s.readBlock s.i.toNat n.toNat .read with
  | .error f => raise s f
  | .ok rows =>
    let d := drawRows (s.reg x) (s.reg y) 0 rows (s.fb, false)
    .next ({ s with fb := d.1 }.setReg 15 (flagByte d.2))

end Sys2Proof.Machine
end

