-- ==== Sys2Proof/Machine/Index.lean ====
section
/-! DEFINITION. The index register and the memory transfers (44_index_memory.md R170 to R178). A block transfer
checks every address first and, if one is invalid, raises and moves nothing (R175). -/

namespace Sys2Proof.Machine

/-- `Annn` LD I: I <- nnn (R170). -/
def execLdI (nnn : Addr) (s : State) : Answer := .next (s.setI (addrOperand nnn))

/-- `Fx1E` ADD I: I <- (I + Vx) mod 65536, VF unchanged (R171, R172, decision D10). DESIGN CHOICE of the spec, log 10. -/
def execAddIVx (x : Reg) (s : State) : Answer := .next (s.setI (s.i + byteOperand (s.reg x)))

/-- `Fx29` LD F: I <- Vx * 5 (R173). -/
def execLdFVx (x : Reg) (s : State) : Answer := .next (s.setI (glyphAddr (s.reg x)))

/-- `Fx33` LD B: the three decimal digits of Vx to I, I+1, I+2 (R174). -/
def execLdBVx (x : Reg) (s : State) : Answer :=
  match s.writeBlock s.i.toNat (bcdDigits (s.reg x)) with
  | .error f => raise s f
  | .ok t => .next t

/-- `Fx55` LD [I], Vx: V0..Vx to I..I+x; I unchanged (R176, decision D9). DESIGN CHOICE of the spec, log 9. -/
def execStoreVx (x : Reg) (s : State) : Answer :=
  match s.writeBlock s.i.toNat (regsUpTo s x) with
  | .error f => raise s f
  | .ok t => .next t

/-- `Fx65` LD Vx, [I]: V0..Vx from I..I+x; I unchanged (R177, decision D9). DESIGN CHOICE of the spec, log 9. -/
def execLoadVx (x : Reg) (s : State) : Answer :=
  match s.readBlock s.i.toNat (x.val + 1) .read with
  | .error f => raise s f
  | .ok bs => .next (s.setRegsFrom 0 bs)

end Sys2Proof.Machine
end

