-- ==== Sys2Proof/Machine/Keypad.lean ====
section
/-! DEFINITION. The keypad and timer instructions (45_keypad_timers.md R190 to R198). The tick of the same cycle
runs after the instruction (30_encoding.md R85), in Machine/Cycle.lean. -/

namespace Sys2Proof.Machine

/-- `Ex9E` SKP: skip if key Vx is down, or KeyOutOfRange for Vx > 0xF (R190, R192). -/
def execSkp (x : Reg) (s : State) : Answer :=
  match keyOperand (s.reg x) with
  | .error f => raise s f
  | .ok k => .next (skipIf (s.keyDown k) s)

/-- `ExA1` SKNP: skip if key Vx is not down, or KeyOutOfRange for Vx > 0xF (R191, R192). -/
def execSknp (x : Reg) (s : State) : Answer :=
  match keyOperand (s.reg x) with
  | .error f => raise s f
  | .ok k => .next (skipIf (!s.keyDown k) s)

/-- `Fx07` LD Vx, DT: Vx <- DT, before this cycle's tick (R193). -/
def execLdVxDt (x : Reg) (s : State) : Answer := .next (s.setReg x s.dt)

/-- `Fx0A` LD Vx, K: with a key down, Vx <- the lowest such key; with none, PC goes back to this instruction, which
the next cycle executes again (R194, R195; decision D29, log 21). -/
def execLdVxK (x : Reg) (s : State) : Answer :=
  match s.anyPressed with
  | none => .next (s.jump s.instrAddr)
  | some k => .next (s.setReg x (BitVec.ofNat 8 k.val))

/-- `Fx15` LD DT, Vx: DT <- Vx (R196). -/
def execLdDtVx (x : Reg) (s : State) : Answer := .next (s.setDt (s.reg x))

/-- `Fx18` LD ST, Vx: ST <- Vx (R197). -/
def execLdStVx (x : Reg) (s : State) : Answer := .next (s.setSt (s.reg x))

end Sys2Proof.Machine
end

