-- ==== Sys2Proof/Machine/Cycle.lean ====
section
/-! DEFINITION. The cycle operation and its outputs (30_encoding.md R80, 60_exceptions.md R210, R212, R218, R222,
R223). The outputs are not state (10_state.md R38): the cycle answers them beside the next state (log 14). -/

namespace Sys2Proof.Machine

/-- The status of a cycle (60_exceptions.md R210): `Ok`, `Unknown(op)` or `Fault(kind, info)`. -/
inductive Status where
  | ok
  | unknown (op : Word)
  | fault (f : Fault)
  deriving DecidableEq, Repr

/-- The outputs of one cycle (R210, 00_scope.md R8). -/
structure CycleResult where
  status : Status
  soundTick : Bool
  deriving DecidableEq, Repr

/-- The code of a status that reports a condition (R213, decision D7: labels only). -/
def Status.code : Status → Option Nat
  | .ok => none
  | .unknown _ => some 16
  | .fault f => some f.code

/-- The cycle has completed with this status: the timers tick (30_encoding.md R85, 60_exceptions.md R222, R223). -/
def completed (status : Status) (s : State) : State × CycleResult := (s.tick, ⟨status, s.soundTick⟩)

/-- The cycle has ended with this fatal error: no tick, no sound tick (R212). -/
def aborted (f : Fault) (s : State) : State × CycleResult := (s, ⟨.fault f, false⟩)

/-- The end of a cycle whose instruction left the state `t`: aborted if it raised, completed with `Ok` if not. -/
def endCycle (t : State) : State × CycleResult :=
  match t.fault with
  | some f => aborted f t
  | none => completed .ok t

/-- The execute step of a decoded word, and the end of the cycle (R80 steps 4 and 5; R218 for an unknown word). `s`
is the state after the advance. -/
def executeDecoded (d : Decoded) (s : State) : Host.Outcome (State × CycleResult) Fault Refusal :=
  match d with
  | .unknown op => .next (completed (.unknown op) s)
  | .instr i =>
    match exec i s with
    | .next t => .next (endCycle t)
    | .fault f => .fault f
    | .refused r => .refused r

/-- `cycle()` (R80): a faulted block changes nothing and answers its fault again (R212); otherwise fetch, decode,
advance, execute, tick. -/
def cycle (s : State) : Host.Outcome (State × CycleResult) Fault Refusal :=
  match s.fault with
  | some f => .next (aborted f s)
  | none =>
    match s.fetch with
    | .error f => .next (aborted f (s.takeFault s.pc f))
    | .ok op => executeDecoded (decodeBytes (highByte op) (lowByte op)) s.advance

/-- The state a cycle leaves, without its outputs. -/
def stateOf (o : Host.Outcome (State × CycleResult) Fault Refusal) : Host.Outcome State Fault Refusal :=
  match o with
  | .next r => .next r.1
  | .fault f => .fault f
  | .refused r => .refused r

/-- A state with an instruction word stored at the PC (big-endian, 20_memory.md R56), where the next cycle fetches it;
where the PC has no room for a word below 0x1000 nothing is stored. The word is given as spec/opcode_table.json
numbers its bits (log 15). -/
def placeWord (s : State) (nbits w : Nat) : State :=
  let op : Word := BitVec.ofNat 16 (w % 2 ^ nbits)
  match s.writeBlock s.pc.toNat [highByte op, lowByte op] with
  | .ok t => t
  | .error _ => s

end Sys2Proof.Machine
end

