-- ==== Sys2Proof/Machine/Step.lean ====
section
/-! DEFINITION. One step of the machine is one cycle (30_encoding.md R80), without its outputs. -/

namespace Sys2Proof.Machine

/-- One cycle, as a step of the state (10_state.md R38: the outputs are not state). -/
def step (s : State) : Host.Outcome State Fault Refusal := stateOf (cycle s)

/-- The state with an instruction word stored where the next step fetches it (log 15). -/
def State.withFetchWord (s : State) (nbits w : Nat) : State := placeWord s nbits w

end Sys2Proof.Machine
end

