-- ==== Sys2Proof/Machine/HostPorts.lean ====
section
/-! DEFINITION. What the host may do between cycles (00_scope.md R8; 60_exceptions.md R226 to R229) and the loader's
contract (70_reset_and_hazards.md R243, R244). -/

namespace Sys2Proof.Machine

/-- `key_set(k, pressed)`: `Keys[k] <- pressed`; a key number above 0xF is refused and changes nothing (60_exceptions.md
R226, decision D22). DESIGN CHOICE of the spec, log 16. -/
def State.keySet (s : State) (k : Nat) (pressed : Bool) : State :=
  if h : k < 16 then { s with keys := s.keys.set k pressed h } else s

/-- `fb_read()`: the 2048 cells in row-major order, off as 0 and on as 1 (R227). -/
def State.fbRead (s : State) : List Byte :=
  s.fb.toList.flatMap fun row => row.toList.map fun on => if on then 1 else 0

/-- The loader's one error (60_exceptions.md R213): the length of a program that does not fit. -/
inductive LoadError where
  | loadTooLarge (length : Nat)
  deriving DecidableEq, Repr

/-- The code of `LoadTooLarge` (R213, decision D7: a label only). -/
def LoadError.code : LoadError → Nat
  | .loadTooLarge _ => 5

/-- `load(bytes)`: the bytes at 0x200 and up, or `LoadTooLarge` and nothing written (70_reset_and_hazards.md R243,
conflict C7; decision D21, log 15). -/
def State.load (s : State) (bytes : List Byte) : Except LoadError State :=
  if bytes.length ≤ Config.maxRom then .ok { s with mem := s.mem.writeBytes Config.progBase bytes }
  else .error (.loadTooLarge bytes.length)

/-- The boot order of R244: reset, one load, then cycles. -/
def boot (rom : List Byte) : Except LoadError State := State.reset.load rom

/-- Reset with another table for the parameter `FONT` (00_scope.md R7, decision D12): its bytes at 0x000 and up
(70_reset_and_hazards.md R242). `State.reset` is the case of the default table. -/
def State.resetWith (font : List Byte) : State :=
  { State.reset with mem := Memory.writeBytes [] 0 (font.take 80) }

/-- What the host may do between two cycles, or ask for: a key, a look at the framebuffer, one cycle (R228, R229). -/
inductive HostMove where
  | keySet (k : Nat) (pressed : Bool)
  | fbRead
  | cycle
  deriving DecidableEq, Repr

/-- One move of the host; reading the framebuffer has no effect on the state (R227). -/
def hostMove (m : HostMove) (s : State) : Host.Outcome State Fault Refusal :=
  match m with
  | .keySet k pressed => .next (s.keySet k pressed)
  | .fbRead => .next s
  | .cycle => step s

/-- A sequence of host moves, for any cadence of cycles and any key sequence (R229). -/
def hostRun (ms : List HostMove) (s : State) : Host.Outcome State Fault Refusal :=
  match ms with
  | [] => .next s
  | m :: ms =>
    match hostMove m s with
    | .next t => hostRun ms t
    | .fault f => .fault f
    | .refused r => .refused r

end Sys2Proof.Machine
end

