-- ==== Sys2Proof/Safety.lean ====
section
/-! DEFINITION. The terms the claims are stated in: the encodings as the rules write them, what a transition leaves
unchanged (frames), the invariants, and a safe run. -/

namespace Sys2Proof.Machine

/-! ### Encodings as the instruction rules write them -/

/-- `x<<8` in an encoding line of the rules. -/
def xBits (x : Reg) : Word := BitVec.ofNat 16 x.val <<< 8

/-- `y<<4` in an encoding line of the rules. -/
def yBits (y : Reg) : Word := BitVec.ofNat 16 y.val <<< 4

/-! ### Frames -/

/-- The parts of the state (10_state.md R19, and the model's `draws`). -/
inductive Part where
  | mem | regs | i | pc | stack | sp | dt | st | fb | keys | fault | draws
  deriving DecidableEq, Repr

/-- A part reads the same in both states: every byte of memory, every register, every cell, and so on. -/
def Part.same : Part → State → State → Prop
  | .mem, s, t => ∀ a, t.byteAt a = s.byteAt a
  | .regs, s, t => ∀ r, t.reg r = s.reg r
  | .i, s, t => t.i = s.i
  | .pc, s, t => t.pc = s.pc
  | .stack, s, t => t.stack = s.stack
  | .sp, s, t => t.sp = s.sp
  | .dt, s, t => t.dt = s.dt
  | .st, s, t => t.st = s.st
  | .fb, s, t => ∀ cx cy, t.cell cx cy = s.cell cx cy
  | .keys, s, t => ∀ k, t.keyDown k = s.keyDown k
  | .fault, s, t => t.fault = s.fault
  | .draws, s, t => t.draws = s.draws

/-- From `s` to `t` nothing outside the listed parts has changed. -/
def SameBut (changed : List Part) (s t : State) : Prop := ∀ p, p ∉ changed → p.same s t

/-- The whole effect is on one register: it holds `value`, all else is unchanged. -/
def SetsReg (x : Reg) (value : Byte) (s t : State) : Prop :=
  t.reg x = value ∧ (∀ r, r ≠ x → t.reg r = s.reg r) ∧ SameBut [.regs] s t

/-- The whole effect is a result in Vx and a flag in VF, the flag in VF when x = 0xF (10_state.md R22). -/
def SetsRegFlag (x : Reg) (value flag : Byte) (s t : State) : Prop :=
  t.reg 15 = flag ∧ (x ≠ 15 → t.reg x = value) ∧ (∀ r, r ≠ x → r ≠ 15 → t.reg r = s.reg r) ∧ SameBut [.regs] s t

/-- The whole effect is on the PC. -/
def SetsPc (target : Word) (s t : State) : Prop := t.pc = target ∧ SameBut [.pc] s t

/-- The registers an instruction may write (10_state.md R23's table). -/
def regsWritten : Instr → List Reg
  | .ldImm x _ | .addImm x _ | .ldReg x _ | .orReg x _ | .andReg x _ | .xorReg x _ => [x]
  | .addReg x _ | .sub x _ | .shr x _ | .subn x _ | .shl x _ => [x, 15]
  | .rnd x _ | .ldVxDt x | .ldVxK x => [x]
  | .drw _ _ _ => [15]
  | .loadVx x => (List.finRange 16).filter (· ≤ x)
  | .cls | .ret | .jp _ | .call _ | .seImm _ _ | .sneImm _ _ | .seReg _ _ | .sneReg _ _ | .ldI _ | .jpV0 _ => []
  | .skp _ | .sknp _ | .ldDtVx _ | .ldStVx _ | .addIVx _ | .ldFVx _ | .ldBVx _ | .storeVx _ => []

/-- The parts other than registers and memory that an instruction's rule writes when it raises nothing (10_state.md
R24, R25, R27, R30 to R32, R34). -/
def partsWritten : Instr → List Part
  | .cls | .drw _ _ _ => [.fb]
  | .ret => [.pc, .sp]
  | .call _ => [.pc, .stack, .sp]
  | .jp _ | .jpV0 _ | .seImm _ _ | .sneImm _ _ | .seReg _ _ | .sneReg _ _ | .skp _ | .sknp _ | .ldVxK _ => [.pc]
  | .ldI _ | .addIVx _ | .ldFVx _ => [.i]
  | .ldDtVx _ => [.dt]
  | .ldStVx _ => [.st]
  | .rnd _ _ => [.draws]
  | .ldImm _ _ | .addImm _ _ | .ldReg _ _ | .orReg _ _ | .andReg _ _ | .xorReg _ _ | .addReg _ _ | .sub _ _ => []
  | .shr _ _ | .subn _ _ | .shl _ _ | .ldVxDt _ | .ldBVx _ | .storeVx _ | .loadVx _ => []

/-- The addresses an instruction stores to in a state (20_memory.md R53): I, I+1, I+2 for `Fx33`, I..I+x for `Fx55`. -/
def storeAddrs (s : State) : Instr → List Nat
  | .ldBVx _ => blockAddrs s.i.toNat 3
  | .storeVx x => blockAddrs s.i.toNat (x.val + 1)
  | .cls | .ret | .jp _ | .call _ | .seImm _ _ | .sneImm _ _ | .seReg _ _ | .sneReg _ _ | .ldI _ | .jpV0 _ => []
  | .ldImm _ _ | .addImm _ _ | .ldReg _ _ | .orReg _ _ | .andReg _ _ | .xorReg _ _ | .addReg _ _ | .sub _ _ => []
  | .shr _ _ | .subn _ _ | .shl _ _ | .rnd _ _ | .drw _ _ _ | .skp _ | .sknp _ | .ldVxDt _ | .ldVxK _ => []
  | .ldDtVx _ | .ldStVx _ | .addIVx _ | .ldFVx _ | .loadVx _ => []

/-- A sprite of `n` rows at I, drawn from (Vx, Vy), has a set bit that falls on the cell (41_display.md R101, R102):
bit `i` of row `j` falls at column `(Vx + i) mod 64` and row `(Vy + j) mod 32`. -/
def SpriteCovers (s : State) (x y : Reg) (n : Nat) (cx : Fin 64) (cy : Fin 32) : Prop :=
  ∃ j, j < n ∧ ∃ i, i < 8 ∧ (s.byteAt (s.i.toNat + j)).getLsbD (7 - i) = true ∧
    ((s.reg x).toNat + i) % 64 = cx.val ∧ ((s.reg y).toNat + j) % 32 = cy.val

/-- `a` is the lowest invalid address of the block of `len` bytes at `base` (20_memory.md R51, 44_index_memory.md R175). -/
def FirstInvalid (base len a : Nat) : Prop :=
  base ≤ a ∧ a < base + len ∧ 0xFFF < a ∧ ∀ b, base ≤ b → b < base + len → 0xFFF < b → a ≤ b

/-! ### Invariants and safe runs -/

/-- No fatal error has been recorded: the run goes on (60_exceptions.md R212). -/
def State.Running (s : State) : Prop := s.fault = none

/-- Memory is in its canonical form (log 18). -/
def State.MemCanonical (s : State) : Prop := s.mem.wf = true

/-- PC is at most 0x10FE and every stack slot at most 0x1000 (10_state.md R26), so no PC arithmetic wraps. -/
def State.PcInRange (s : State) : Prop := s.pc.toNat ≤ 0x10FE ∧ ∀ k : Fin 16, s.stack[k].toNat ≤ 0x1000

/-- The invariant of the machine. -/
def State.Inv (s : State) : Prop := s.MemCanonical ∧ s.PcInRange

/-- A safe run: the host's moves lead to a state with no fatal error recorded. -/
def RunsSafely (ms : List HostMove) (s : State) : Prop := ∃ t, hostRun ms s = .next t ∧ t.Running

end Sys2Proof.Machine
end

