-- ==== Sys2Proof/Certificates/Slice0/Obligations.lean ====
section
/-! DEFINITION. The statements for the provers. Each says which rule of spec/ it formalises. A statement that rests on
a decision of spec/92_eei_decisions.md (D<n>) or on an inference the spec marks as its own names it. -/

open Sys2Proof Sys2Proof.Machine

/-! ### Encoding and decoding (30_encoding.md) -/

/-- Encoding an instruction and decoding the word gives the instruction back, with every operand (R71 to R75). -/
def Obligations.DecodeOfEncode : Prop := ∀ i : Instr, decode (encode i) = .instr i

/-- A word that decodes to an instruction is the word of that instruction: each instruction has one word (R75). -/
def Obligations.EncodeOfDecode : Prop := ∀ (op : Word) (i : Instr), decode op = .instr i → encode i = op

/-- The decoder accepts exactly the words that a row of R75's table selects, and every other word decodes to
`Unknown` of itself (R82). -/
def Obligations.DecoderAgreesWithOpcodeTable : Prop :=
  ∀ op : Word,
    (definedWord op = true → ∃ i, decode op = .instr i) ∧ (definedWord op = false → decode op = .unknown op)

/-- The unknown words are exactly the six classes of R77 (class 0 rests on decision D25). -/
def Obligations.UnknownWordsAreTheListedClasses : Prop :=
  ∀ op : Word, decode op = .unknown op ↔
    ((op.toNat / 4096 = 0 ∧ op ≠ 0x00E0 ∧ op ≠ 0x00EE) ∨
     (op.toNat / 4096 = 5 ∧ op.toNat % 16 ≠ 0) ∨
     (op.toNat / 4096 = 8 ∧ op.toNat % 16 ∈ [0x8, 0x9, 0xA, 0xB, 0xC, 0xD, 0xF]) ∨
     (op.toNat / 4096 = 9 ∧ op.toNat % 16 ≠ 0) ∨
     (op.toNat / 4096 = 0xE ∧ op.toNat % 256 ∉ [0x9E, 0xA1]) ∨
     (op.toNat / 4096 = 0xF ∧ op.toNat % 256 ∉ [0x07, 0x0A, 0x15, 0x18, 0x1E, 0x29, 0x33, 0x55, 0x65]))

/-- Words written out from the encoding lines of the rules decode to the instructions they stand for. -/
def Obligations.SpecWordsDecode : Prop :=
  decode 0x00E0 = .instr .cls ∧ decode 0x2210 = .instr (.call 0x210) ∧ decode 0x3005 = .instr (.seImm 0 5) ∧
    decode 0x5340 = .instr (.seReg 3 4) ∧ decode 0x8124 = .instr (.addReg 1 2) ∧ decode 0x810E = .instr (.shl 1 0) ∧
    decode 0xD122 = .instr (.drw 1 2 2) ∧ decode 0xE19E = .instr (.skp 1) ∧ decode 0xF533 = .instr (.ldBVx 5) ∧
    decode 0x5341 = .unknown 0x5341

/-! ### The cycle (30_encoding.md R80 to R85, 60_exceptions.md R210 to R223) -/

/-- When the bytes at the PC decode to an instruction, the step runs it on the advanced state and then ticks, or leaves
the state with the fatal error it raised (R80, R83 to R85; the untaken tick is decision D6). -/
def Obligations.StepRunsTheDecodedInstruction : Prop :=
  ∀ (s : State) (i : Instr), s.fault = none → s.pc.toNat ≤ 0xFFE →
    decodeBytes (s.byteAt s.pc.toNat) (s.byteAt (s.pc.toNat + 1)) = .instr i →
    step s =
      match exec i { s with pc := s.pc + 2 } with
      | .next t => .next (if t.fault = none then t.tick else t)
      | .fault f => .fault f
      | .refused r => .refused r

/-- The fetch: the big-endian word at PC where PC and PC+1 are addresses, else the error of the first that is not (R81). -/
def Obligations.FetchReadsBigEndianOrFaults : Prop :=
  ∀ s : State,
    (s.pc.toNat ≤ 0xFFE → ∃ op, s.fetch = .ok op ∧
      op.toNat = (s.byteAt s.pc.toNat).toNat * 256 + (s.byteAt (s.pc.toNat + 1)).toNat) ∧
    (s.pc.toNat = 0xFFF → s.fetch = .error (.memoryOutOfBounds 0x1000 .fetch)) ∧
    (0x1000 ≤ s.pc.toNat → s.fetch = .error (.memoryOutOfBounds s.pc.toNat .fetch))

/-- A failing fetch ends the cycle: the error is recorded, nothing else changes, no timer ticks (decision D6). -/
def Obligations.FetchErrorEndsTheCycle : Prop :=
  ∀ s : State, s.fault = none → 0xFFE < s.pc.toNat → ∃ f, s.fetch = .error f ∧
    cycle s = .next ({ s with fault := some f }, ⟨.fault f, false⟩)

/-- An unknown word is a no-op beyond the advance and the tick, and is reported with the word (R77, R218; decisions
D23, D25). -/
def Obligations.UnknownWordIsAReportedNoOp : Prop :=
  ∀ (s : State) (op : Word), s.fault = none → s.fetch = .ok op → definedWord op = false →
    ∃ t, cycle s = .next (t, ⟨.unknown op, s.st == 1⟩) ∧ t.pc = s.pc + 2 ∧ t.dt.toNat = s.dt.toNat - 1 ∧
      t.st.toNat = s.st.toNat - 1 ∧ SameBut [.pc, .dt, .st] s t

/-- The tick runs after the execute step of every cycle that does not raise, unknown words and waiting cycles
included, on the timer values the instruction left (R85). `u` is the state after the execute step. -/
def Obligations.TickFollowsTheExecuteStep : Prop :=
  ∀ (s u : State) (op : Word), s.fault = none → s.fetch = .ok op → u.fault = none →
    (decode op = .unknown op ∧ u = { s with pc := s.pc + 2 } ∨
      ∃ i, decode op = .instr i ∧ exec i { s with pc := s.pc + 2 } = .next u) →
    ∃ t r, cycle s = .next (t, r) ∧ t.dt.toNat = u.dt.toNat - 1 ∧ t.st.toNat = u.st.toNat - 1 ∧
      r.soundTick = (u.st == 1) ∧ SameBut [.dt, .st] u t

/-- The status a cycle reports is its fatal error, or the unknown word, or Ok; a sound tick comes only from a completed
cycle that leaves ST at 0 (R210; record form decision D1). -/
def Obligations.CycleReportsItsStatus : Prop :=
  ∀ (s t : State) (r : CycleResult) (op : Word), s.fault = none → s.fetch = .ok op → cycle s = .next (t, r) →
    r.status =
      (match t.fault, decode op with
      | some f, _ => .fault f
      | none, .unknown w => .unknown w
      | none, .instr _ => .ok) ∧
    (r.soundTick = true → t.fault = none ∧ t.st = 0)

/-- Every cycle answers a next state and its outputs: no encoding traps and no state stops the machine (R78, R82). -/
def Obligations.EveryCycleAnswersANextState : Prop :=
  ∀ s : State, ∃ t r, cycle s = .next (t, r) ∧ step s = .next t

/-- A cycle that raises a fatal error is undone: the state is the state before it with the error recorded, and no sound
tick is given (R212, R221: decision D6). -/
def Obligations.RaisingCycleIsUndone : Prop :=
  ∀ (s t : State) (r : CycleResult) (f : Fault), s.fault = none → cycle s = .next (t, r) → t.fault = some f →
    t = { s with fault := some f } ∧ r = ⟨.fault f, false⟩

/-- A faulted machine stays as it is and answers the same fault, however many cycles are asked of it (R212: decision
D6). -/
def Obligations.FaultedMachineDoesNotChange : Prop :=
  ∀ (s : State) (f : Fault), s.fault = some f →
    cycle s = .next (s, ⟨.fault f, false⟩) ∧ ∀ n : Nat, hostRun (List.replicate n .cycle) s = .next s

/-- No move of the host clears a fatal error: a run with a safe end was safe all along (R212, R228: decision D6). -/
def Obligations.FatalErrorIsNeverCleared : Prop :=
  ∀ (ms ns : List HostMove) (s : State), RunsSafely (ms ++ ns) s → RunsSafely ms s

/-! ### Whole-machine frames (10_state.md R23 to R34, 20_memory.md R53) -/

/-- Only the registers that R23's table lists for an instruction can change (an inference the spec marks as its own). -/
def Obligations.OnlyListedRegistersChange : Prop :=
  ∀ (i : Instr) (s t : State), exec i s = .next t → ∀ r, r ∉ regsWritten i → t.reg r = s.reg r

/-- Only `Fx33` and `Fx55` store to memory, and only to I, I+1, I+2 and I..I+x (R53, an inference the spec marks as its
own). -/
def Obligations.OnlyStoresChangeMemory : Prop :=
  ∀ (i : Instr) (s t : State), exec i s = .next t → ∀ a, a ∉ storeAddrs s i → t.byteAt a = s.byteAt a

/-- Every other part of the state is changed only by the instructions whose rules write it: the framebuffer by CLS and
DRW, the stack by CALL, SP by CALL and RET, I by its three loads, a timer by its load, the keypad by none. -/
def Obligations.OnlyListedPartsChange : Prop :=
  ∀ (i : Instr) (s t : State), s.fault = none → exec i s = .next t → t.fault = none →
    ∀ p, p ∉ partsWritten i → p ≠ .mem → p ≠ .regs → p.same s t

/-- The engine only reads the keypad: no step changes a key (R34). -/
def Obligations.StepNeverChangesTheKeypad : Prop :=
  ∀ s t : State, step s = .next t → ∀ k, t.keyDown k = s.keyDown k

/-! ### Display (41_display.md) -/

/-- `00E0` turns every cell off and changes nothing else, VF included (R100). -/
def Obligations.ClearTurnsEveryCellOff : Prop :=
  decode 0x00E0 = .instr .cls ∧
    ∀ s : State, ∃ t, exec .cls s = .next t ∧ (∀ cx cy, t.cell cx cy = false) ∧ SameBut [.fb] s t

/-- `Dxyn` inverts exactly the cells that a set sprite bit falls on, wrapping on both axes, and sets VF to 1 iff one of
them was on, else to 0 (R101 to R107; VF's byte is decision D5). -/
def Obligations.DrawXorsTheSprite : Prop :=
  ∀ (x y : Reg) (n : Nibble) (s : State),
    decode (0xD000 ||| xBits x ||| yBits y ||| n.setWidth 16) = .instr (.drw x y n) ∧
    ((n.toNat = 0 ∨ s.i.toNat + n.toNat ≤ 0x1000) →
      ∃ t, exec (.drw x y n) s = .next t ∧
        (∀ cx cy, (SpriteCovers s x y n.toNat cx cy → t.cell cx cy = !s.cell cx cy) ∧
          (¬ SpriteCovers s x y n.toNat cx cy → t.cell cx cy = s.cell cx cy)) ∧
        ((∃ cx cy, SpriteCovers s x y n.toNat cx cy ∧ s.cell cx cy = true) → t.reg 15 = 1) ∧
        ((¬ ∃ cx cy, SpriteCovers s x y n.toNat cx cy ∧ s.cell cx cy = true) → t.reg 15 = 0) ∧
        (∀ r, r ≠ 15 → t.reg r = s.reg r) ∧ SameBut [.regs, .fb] s t)

/-- Drawing the same sprite twice at the same place restores every cell, and the second draw reports a collision iff a
covered cell was on after the first (R104's involution). Vx and Vy are not VF, which the first draw writes. -/
def Obligations.DrawTwiceRestoresTheScreen : Prop :=
  ∀ (x y : Reg) (n : Nibble) (s : State), x ≠ 15 → y ≠ 15 → (n.toNat = 0 ∨ s.i.toNat + n.toNat ≤ 0x1000) →
    ∃ t u, exec (.drw x y n) s = .next t ∧ exec (.drw x y n) t = .next u ∧
      (∀ cx cy, u.cell cx cy = s.cell cx cy) ∧
      (u.reg 15 = 1 ↔ ∃ cx cy, SpriteCovers s x y n.toNat cx cy ∧ t.cell cx cy = true) ∧
      (u.reg 15 = 0 ↔ ¬ ∃ cx cy, SpriteCovers s x y n.toNat cx cy ∧ t.cell cx cy = true)

/-! ### Control transfer (42_control_flow.md) -/

/-- `00EE` pops the stack into PC, SP falling first, or raises StackUnderflow with its address at SP = 0 (R121). -/
def Obligations.ReturnPopsTheStack : Prop :=
  decode 0x00EE = .instr .ret ∧
    ∀ s : State,
      (∀ k : Fin 16, s.sp.val = k.val + 1 → ∃ t, exec .ret s = .next t ∧ t.pc = s.stack[k] ∧ t.sp.val = k.val ∧
        SameBut [.pc, .sp] s t) ∧
      (s.sp.val = 0 → ∃ t, exec .ret s = .next t ∧ t.fault = some (.stackUnderflow (s.pc - 2)))

/-- `1nnn` writes nnn to PC (R122). -/
def Obligations.JumpSetsPc : Prop :=
  ∀ (nnn : Addr) (s : State), decode (0x1000 ||| nnn.setWidth 16) = .instr (.jp nnn) ∧
    ∃ t, exec (.jp nnn) s = .next t ∧ SetsPc (nnn.setWidth 16) s t

/-- `2nnn` pushes the advanced PC, SP rising after, and jumps to nnn, or raises StackOverflow with its address at
SP = 16 (R123). -/
def Obligations.CallPushesTheReturnAddress : Prop :=
  ∀ (nnn : Addr) (s : State), decode (0x2000 ||| nnn.setWidth 16) = .instr (.call nnn) ∧
    (∀ k : Fin 16, s.sp.val = k.val → ∃ t, exec (.call nnn) s = .next t ∧ t.stack[k] = s.pc ∧
      (∀ j : Fin 16, j ≠ k → t.stack[j] = s.stack[j]) ∧ t.sp.val = k.val + 1 ∧ t.pc = nnn.setWidth 16 ∧
      SameBut [.pc, .stack, .sp] s t) ∧
    (s.sp.val = 16 → ∃ t, exec (.call nnn) s = .next t ∧ t.fault = some (.stackOverflow (s.pc - 2)))

/-- `00EE` after `2nnn` restores PC to the instruction after the call, and SP (R121, R123), wherever the PC is then. -/
def Obligations.ReturnAfterCallRestoresPc : Prop :=
  ∀ (nnn : Addr) (s : State) (w : Word), s.sp.val < 16 →
    ∃ t u, exec (.call nnn) s = .next t ∧ exec .ret { t with pc := w } = .next u ∧ u.pc = s.pc ∧ u.sp = s.sp

/-- `3xnn` and `4xnn` skip by adding 2 to the advanced PC when Vx equals, or differs from, nn (R124, R125). -/
def Obligations.ImmediateSkips : Prop :=
  ∀ (x : Reg) (nn : Byte) (s : State),
    decode (0x3000 ||| xBits x ||| nn.setWidth 16) = .instr (.seImm x nn) ∧
    (∃ t, exec (.seImm x nn) s = .next t ∧ SetsPc (if s.reg x = nn then s.pc + 2 else s.pc) s t) ∧
    decode (0x4000 ||| xBits x ||| nn.setWidth 16) = .instr (.sneImm x nn) ∧
    (∃ t, exec (.sneImm x nn) s = .next t ∧ SetsPc (if s.reg x ≠ nn then s.pc + 2 else s.pc) s t)

/-- `5xy0` and `9xy0` skip when Vx equals, or differs from, Vy; a low nibble other than 0 is an unknown opcode (R126,
R127). -/
def Obligations.RegisterSkips : Prop :=
  ∀ (x y : Reg) (s : State),
    decode (0x5000 ||| xBits x ||| yBits y) = .instr (.seReg x y) ∧
    (∃ t, exec (.seReg x y) s = .next t ∧ SetsPc (if s.reg x = s.reg y then s.pc + 2 else s.pc) s t) ∧
    decode (0x9000 ||| xBits x ||| yBits y) = .instr (.sneReg x y) ∧
    (∃ t, exec (.sneReg x y) s = .next t ∧ SetsPc (if s.reg x ≠ s.reg y then s.pc + 2 else s.pc) s t) ∧
    ∀ n : Nibble, n ≠ 0 → ∀ w : Word,
      (w = 0x5000 ||| xBits x ||| yBits y ||| n.setWidth 16 ∨ w = 0x9000 ||| xBits x ||| yBits y ||| n.setWidth 16) →
      decode w = .unknown w

/-- `Bnnn` writes nnn + V0 to PC, without truncation (R129; that it fits is an inference the spec marks as its own). -/
def Obligations.IndexedJumpAddsV0 : Prop :=
  ∀ (nnn : Addr) (s : State), decode (0xB000 ||| nnn.setWidth 16) = .instr (.jpV0 nnn) ∧
    ∃ t, exec (.jpV0 nnn) s = .next t ∧ t.pc.toNat = nnn.toNat + (s.reg 0).toNat ∧ SameBut [.pc] s t

/-! ### Loads and ALU (43_alu.md) -/

/-- `6xnn` writes nn to Vx (R141). -/
def Obligations.LoadImmediateSetsVx : Prop :=
  ∀ (x : Reg) (nn : Byte) (s : State), decode (0x6000 ||| xBits x ||| nn.setWidth 16) = .instr (.ldImm x nn) ∧
    ∃ t, exec (.ldImm x nn) s = .next t ∧ SetsReg x nn s t

/-- `7xnn` writes (Vx + nn) mod 256 to Vx; VF is unchanged unless x = F (R142). -/
def Obligations.AddImmediateWraps : Prop :=
  ∀ (x : Reg) (nn : Byte) (s : State), decode (0x7000 ||| xBits x ||| nn.setWidth 16) = .instr (.addImm x nn) ∧
    ∃ t, exec (.addImm x nn) s = .next t ∧
      SetsReg x (BitVec.ofNat 8 (((s.reg x).toNat + nn.toNat) % 256)) s t

/-- `8xy0` copies Vy to Vx (R143). -/
def Obligations.CopyRegister : Prop :=
  ∀ (x y : Reg) (s : State), decode (0x8000 ||| xBits x ||| yBits y) = .instr (.ldReg x y) ∧
    ∃ t, exec (.ldReg x y) s = .next t ∧ SetsReg x (s.reg y) s t

/-- `8xy1`, `8xy2`, `8xy3` write the bitwise OR, AND, XOR to Vx, bit by bit; VF is not reset (an inference the spec
marks as its own). -/
def Obligations.LogicalOperations : Prop :=
  ∀ (x y : Reg) (s : State),
    (∃ t v, exec (.orReg x y) s = .next t ∧ SetsReg x v s t ∧
      ∀ k, k < 8 → v.getLsbD k = ((s.reg x).getLsbD k || (s.reg y).getLsbD k)) ∧
    (∃ t v, exec (.andReg x y) s = .next t ∧ SetsReg x v s t ∧
      ∀ k, k < 8 → v.getLsbD k = ((s.reg x).getLsbD k && (s.reg y).getLsbD k)) ∧
    (∃ t v, exec (.xorReg x y) s = .next t ∧ SetsReg x v s t ∧
      ∀ k, k < 8 → v.getLsbD k = ((s.reg x).getLsbD k ^^ (s.reg y).getLsbD k))

/-- `8xy4` writes (Vx + Vy) mod 256 to Vx and 1 to VF iff the sum exceeds 255, else 0; VF ends as the flag when x = F
(R147; the order of the writes is decision D4). -/
def Obligations.AddRegistersCarries : Prop :=
  ∀ (x y : Reg) (s : State), ∃ t, exec (.addReg x y) s = .next t ∧
    SetsRegFlag x (BitVec.ofNat 8 (((s.reg x).toNat + (s.reg y).toNat) % 256))
      (if 255 < (s.reg x).toNat + (s.reg y).toNat then 1 else 0) s t

/-- `8xy5` and `8xy7` subtract modulo 256 and write 1 to VF iff there is no borrow, else 0 (R148 to R150, R152; the value
1 is decision D2, the boundary D3, the order of the writes D4). -/
def Obligations.SubtractionsBorrow : Prop :=
  ∀ (x y : Reg) (s : State),
    (∃ t, exec (.sub x y) s = .next t ∧
      SetsRegFlag x (BitVec.ofNat 8 ((256 + (s.reg x).toNat - (s.reg y).toNat) % 256))
        (if (s.reg y).toNat ≤ (s.reg x).toNat then 1 else 0) s t) ∧
    (∃ t, exec (.subn x y) s = .next t ∧
      SetsRegFlag x (BitVec.ofNat 8 ((256 + (s.reg y).toNat - (s.reg x).toNat) % 256))
        (if (s.reg x).toNat ≤ (s.reg y).toNat then 1 else 0) s t)

/-- `8xy6` and `8xyE` shift Vx by one bit, whatever y is, and write the bit moved out to VF (R151, R154; the order of the
writes is decision D4). -/
def Obligations.ShiftsMoveOneBitOut : Prop :=
  ∀ (x y : Reg) (s : State),
    (∃ t, exec (.shr x y) s = .next t ∧
      SetsRegFlag x (BitVec.ofNat 8 ((s.reg x).toNat / 2)) (BitVec.ofNat 8 ((s.reg x).toNat % 2)) s t) ∧
    (∃ t, exec (.shl x y) s = .next t ∧
      SetsRegFlag x (BitVec.ofNat 8 ((s.reg x).toNat * 2 % 256)) (BitVec.ofNat 8 ((s.reg x).toNat / 128)) s t)

/-- `Cxnn` writes the next random byte masked by nn to Vx and uses that byte up (R156; the free draw is decision D16, log
1): no bit outside nn is ever set, whatever the byte. -/
def Obligations.RandomByteIsMasked : Prop :=
  ∀ (x : Reg) (nn : Byte) (s : State), ∃ t, exec (.rnd x nn) s = .next t ∧
    SetsReg x (Config.randByte s.draws &&& nn) s { t with draws := s.draws } ∧ t.draws = s.draws + 1 ∧
    (t.reg x).toNat ≤ nn.toNat

/-! ### Index register and memory (44_index_memory.md) -/

/-- `Annn` writes nnn to I (R170). -/
def Obligations.LoadIndexSetsI : Prop :=
  ∀ (nnn : Addr) (s : State), decode (0xA000 ||| nnn.setWidth 16) = .instr (.ldI nnn) ∧
    ∃ t, exec (.ldI nnn) s = .next t ∧ t.i = nnn.setWidth 16 ∧ SameBut [.i] s t

/-- `Fx1E` writes (I + Vx) mod 65536 to I and leaves VF; `Fx29` writes Vx * 5 to I, not masked to a digit (R171 to R173;
the wrap is decision D10). -/
def Obligations.IndexArithmetic : Prop :=
  ∀ (x : Reg) (s : State),
    (∃ t, exec (.addIVx x) s = .next t ∧ t.i.toNat = (s.i.toNat + (s.reg x).toNat) % 65536 ∧ SameBut [.i] s t) ∧
    (∃ t, exec (.ldFVx x) s = .next t ∧ t.i.toNat = (s.reg x).toNat * 5 ∧ SameBut [.i] s t)

/-- `Fx33` writes the hundreds, tens and ones digits of Vx to I, I+1, I+2 and nothing else, or raises
MemoryOutOfBounds with the first invalid of them (R174). Memory is canonical in the first case. -/
def Obligations.BcdStoresThreeDigits : Prop :=
  ∀ (x : Reg) (s : State), decode (0xF033 ||| xBits x) = .instr (.ldBVx x) ∧
    (s.MemCanonical → s.i.toNat + 2 ≤ 0xFFF → ∃ t, exec (.ldBVx x) s = .next t ∧
      (t.byteAt s.i.toNat).toNat = (s.reg x).toNat / 100 ∧
      (t.byteAt (s.i.toNat + 1)).toNat = (s.reg x).toNat / 10 % 10 ∧
      (t.byteAt (s.i.toNat + 2)).toNat = (s.reg x).toNat % 10 ∧
      (∀ a, a < s.i.toNat ∨ s.i.toNat + 2 < a → t.byteAt a = s.byteAt a) ∧ SameBut [.mem] s t) ∧
    (0xFFF < s.i.toNat + 2 → ∃ t a, exec (.ldBVx x) s = .next t ∧ FirstInvalid s.i.toNat 3 a ∧
      t.fault = some (.memoryOutOfBounds a .write))

/-- `Fx55` writes V0..Vx to I..I+x and nothing else; I is unchanged (R176: decision D9). -/
def Obligations.StoreWritesRegistersToMemory : Prop :=
  ∀ (x : Reg) (s : State), s.MemCanonical → s.i.toNat + x.val ≤ 0xFFF → ∃ t, exec (.storeVx x) s = .next t ∧
    (∀ r : Reg, r ≤ x → t.byteAt (s.i.toNat + r.val) = s.reg r) ∧
    (∀ a, a < s.i.toNat ∨ s.i.toNat + x.val < a → t.byteAt a = s.byteAt a) ∧ SameBut [.mem] s t

/-- `Fx65` reads V0..Vx from I..I+x and leaves the registers above x, memory and I (R177: decision D9). -/
def Obligations.LoadReadsRegistersFromMemory : Prop :=
  ∀ (x : Reg) (s : State), s.i.toNat + x.val ≤ 0xFFF → ∃ t, exec (.loadVx x) s = .next t ∧
    (∀ r : Reg, r ≤ x → t.reg r = s.byteAt (s.i.toNat + r.val)) ∧ (∀ r : Reg, x < r → t.reg r = s.reg r) ∧
    SameBut [.regs] s t

/-- `Dxyn`, `Fx33`, `Fx55` and `Fx65` over a block that leaves the address space raise MemoryOutOfBounds with its lowest
invalid address and move nothing (R106, R175, R212: decisions D6, D15). -/
def Obligations.BlockBeyondMemoryRaises : Prop :=
  ∀ (i : Instr) (s : State) (len : Nat) (kind : AccessKind),
    ((∃ x y n, i = .drw x y n ∧ len = n.toNat ∧ kind = .read) ∨ (∃ x, i = .ldBVx x ∧ len = 3 ∧ kind = .write) ∨
      (∃ x, i = .storeVx x ∧ len = x.val + 1 ∧ kind = .write) ∨
      (∃ x, i = .loadVx x ∧ len = x.val + 1 ∧ kind = .read)) →
    len ≠ 0 → 0x1000 < s.i.toNat + len → ∃ a, FirstInvalid s.i.toNat len a ∧
      exec i s = .next { s with pc := s.pc - 2, fault := some (.memoryOutOfBounds a kind) }

/-- `Fx65` after `Fx55` at the same I gives V0..Vx back, whatever the registers held in between (R176, R177). -/
def Obligations.LoadAfterStoreRestoresRegisters : Prop :=
  ∀ (x : Reg) (s : State) (vs : Vector Byte 16), s.MemCanonical → s.i.toNat + x.val ≤ 0xFFF →
    ∃ t u, exec (.storeVx x) s = .next t ∧ exec (.loadVx x) { t with v := vs } = .next u ∧
      ∀ r : Reg, r ≤ x → u.reg r = s.reg r

/-- A store by `Fx55` is seen by the fetch of the bytes it wrote (R63, R248, an inference the spec marks as its own). -/
def Obligations.StoreIsSeenByTheNextFetch : Prop :=
  ∀ (x r q : Reg) (s : State), s.MemCanonical → s.i.toNat + x.val ≤ 0xFFF → q.val = r.val + 1 → q ≤ x →
    ∃ t op, exec (.storeVx x) s = .next t ∧
      ({ t with pc := BitVec.ofNat 16 (s.i.toNat + r.val) } : State).fetch = .ok op ∧
      op.toNat = (s.reg r).toNat * 256 + (s.reg q).toNat

/-! ### Keypad and timers (45_keypad_timers.md) -/

/-- `Ex9E` and `ExA1` skip when the key numbered Vx is down, or up; a value above 0xF raises KeyOutOfRange and changes
nothing (R190 to R192: decisions D6, D8). -/
def Obligations.KeySkips : Prop :=
  ∀ (x : Reg) (s : State),
    (∀ k : Key, (s.reg x).toNat = k.val →
      (∃ t, exec (.skp x) s = .next t ∧ SetsPc (if s.keyDown k = true then s.pc + 2 else s.pc) s t) ∧
      (∃ t, exec (.sknp x) s = .next t ∧ SetsPc (if s.keyDown k = true then s.pc else s.pc + 2) s t)) ∧
    (0xF < (s.reg x).toNat →
      exec (.skp x) s = .next { s with pc := s.pc - 2, fault := some (.keyOutOfRange (s.reg x)) } ∧
      exec (.sknp x) s = .next { s with pc := s.pc - 2, fault := some (.keyOutOfRange (s.reg x)) })

/-- `Fx07` writes DT, as it stands before this cycle's tick, to Vx (R193). -/
def Obligations.ReadDelayTimer : Prop :=
  ∀ (x : Reg) (s : State), decode (0xF007 ||| xBits x) = .instr (.ldVxDt x) ∧
    ∃ t, exec (.ldVxDt x) s = .next t ∧ SetsReg x s.dt s t

/-- `Fx0A` with no key down takes PC back to itself; with keys down it writes the lowest to Vx and goes on (R194; that it
tests the level is an inference the spec marks as its own). -/
def Obligations.KeyWaitWaitsOrTakesAKey : Prop :=
  ∀ (x : Reg) (s : State),
    ((∀ k, s.keyDown k = false) → ∃ t, exec (.ldVxK x) s = .next t ∧ SetsPc (s.pc - 2) s t) ∧
    (∀ k : Key, s.keyDown k = true → (∀ j, j < k → s.keyDown j = false) →
      ∃ t, exec (.ldVxK x) s = .next t ∧ SetsReg x (BitVec.ofNat 8 k.val) s t)

/-- `any_pressed()` is the lowest-indexed key that is down, or none, and `Fx0A` takes it (R195). -/
def Obligations.AnyPressedIsTheLowestKey : Prop :=
  ∀ s : State,
    (s.anyPressed = none ↔ ∀ k, s.keyDown k = false) ∧
    (∀ k, s.anyPressed = some k ↔ s.keyDown k = true ∧ ∀ j, j < k → s.keyDown j = false) ∧
    ∀ (x : Reg) (k : Key), s.anyPressed = some k →
      ∃ t, exec (.ldVxK x) s = .next t ∧ (t.reg x).toNat = k.val

/-- `Fx15` writes Vx to DT; the tick of the same cycle leaves max(Vx - 1, 0) (R196). -/
def Obligations.SetDelayTimer : Prop :=
  ∀ (x : Reg) (s : State), decode (0xF015 ||| xBits x) = .instr (.ldDtVx x) ∧
    ∃ t, exec (.ldDtVx x) s = .next t ∧ t.dt = s.reg x ∧ SameBut [.dt] s t ∧
      (s.fault = none → (endCycle t).1.dt.toNat = (s.reg x).toNat - 1)

/-- `Fx18` writes Vx to ST; the tick of the same cycle then decrements it, with the sound tick iff Vx = 1 (R197). -/
def Obligations.SetSoundTimer : Prop :=
  ∀ (x : Reg) (s : State), decode (0xF018 ||| xBits x) = .instr (.ldStVx x) ∧
    ∃ t, exec (.ldStVx x) s = .next t ∧ t.st = s.reg x ∧ SameBut [.st] s t ∧
      (s.fault = none → (endCycle t).1.st.toNat = (s.reg x).toNat - 1 ∧
        ((endCycle t).2.soundTick = true ↔ s.reg x = 1))

/-- While no key is down, any number of cycles at an `Fx0A` leaves everything as it was but the timers, which keep ticking
(R36, R194, R225: decision D29). -/
def Obligations.WaitingForAKeyOnlyTicks : Prop :=
  ∀ (n : Nat) (x : Reg) (s : State), s.fault = none → s.pc.toNat ≤ 0xFFE →
    decodeBytes (s.byteAt s.pc.toNat) (s.byteAt (s.pc.toNat + 1)) = .instr (.ldVxK x) →
    (∀ k, s.keyDown k = false) →
    hostRun (List.replicate n .cycle) s =
      .next { s with dt := BitVec.ofNat 8 (s.dt.toNat - n), st := BitVec.ofNat 8 (s.st.toNat - n) }

/-! ### Invariants -/

/-- Memory's canonical form, with every listed address in the address space, is kept by every step (log 18). -/
def Obligations.StepKeepsMemoryCanonical : Prop :=
  ∀ s t : State, s.MemCanonical → step s = .next t → t.MemCanonical

/-- PC stays at most 0x10FE and every stack slot at most 0x1000, so PC arithmetic never wraps (R26, an inference the spec
marks as its own). -/
def Obligations.StepKeepsPcInRange : Prop :=
  ∀ s t : State, s.PcInRange → step s = .next t → t.PcInRange

/-- Whatever the host does between cycles, the invariant is kept (R228, R229: decision D30). -/
def Obligations.HostRunKeepsTheInvariant : Prop :=
  ∀ (ms : List HostMove) (s t : State), s.Inv → hostRun ms s = .next t → t.Inv

/-- The invariant holds at reset. -/
def Obligations.ResetMeetsTheInvariant : Prop := State.reset.Inv

/-! ### Reset, the loader and the host's ports -/

/-- What reset leaves (R240): the font and zeros in memory, PC at 0x200, all else zero, off, released or none. I, the
framebuffer and the keypad are decision D11 (log 5), `fault` D6 (log 4), the font's bytes D12 (log 2). -/
def Obligations.ResetLeavesTheSpecValues : Prop :=
  (∀ a, State.reset.byteAt a = if h : a < Config.font.length then Config.font[a] else 0) ∧ Config.font.length = 80 ∧
    (∀ r, State.reset.reg r = 0) ∧ State.reset.i = 0 ∧ State.reset.pc = 0x200 ∧
    (∀ k : Fin 16, State.reset.stack[k] = 0) ∧ State.reset.sp = 0 ∧ State.reset.dt = 0 ∧ State.reset.st = 0 ∧
    (∀ cx cy, State.reset.cell cx cy = false) ∧ (∀ k, State.reset.keyDown k = false) ∧ State.reset.fault = none

/-- `load` puts a program of at most 3584 bytes at 0x200 and changes no other byte; a longer one is rejected and nothing is
written (R243: decision D21). -/
def Obligations.LoaderPlacesOrRejects : Prop :=
  ∀ (rom : List Byte) (s : State), s.MemCanonical →
    (rom.length ≤ 3584 → ∃ t, s.load rom = .ok t ∧ t.MemCanonical ∧
      (∀ (k : Nat) (h : k < rom.length), t.byteAt (0x200 + k) = rom[k]) ∧
      (∀ a, a < 0x200 ∨ 0x200 + rom.length ≤ a → t.byteAt a = s.byteAt a) ∧ SameBut [.mem] s t) ∧
    (3584 < rom.length → s.load rom = .error (.loadTooLarge rom.length))

/-- `key_set` writes one key and nothing else; a key number above 0xF changes nothing (R226: decision D22). -/
def Obligations.KeySetWritesOneKey : Prop :=
  ∀ (s : State) (pressed : Bool),
    (∀ k : Key, (s.keySet k.val pressed).keyDown k = pressed ∧
      (∀ j, j ≠ k → (s.keySet k.val pressed).keyDown j = s.keyDown j) ∧ SameBut [.keys] s (s.keySet k.val pressed)) ∧
    ∀ k, 0xF < k → s.keySet k pressed = s

/-- `fb_read` gives the 2048 cells in row-major order, off as 0 and on as 1, and has no effect on the state (R227). -/
def Obligations.FramebufferReadIsRowMajor : Prop :=
  ∀ s : State, s.fbRead.length = 2048 ∧
    (∀ (cx : Fin 64) (cy : Fin 32), s.fbRead[cy.val * 64 + cx.val]? = some (if s.cell cx cy = true then 1 else 0)) ∧
    hostMove .fbRead s = .next s
end

