-- ==== Sys2Proof/Laws/Decode.lean ====
section
/-! SUPPORT. The fields of a word as numbers, the words of the formats as numbers, and every field read back from every
format (30_encoding.md R71, R72). -/

namespace Sys2Proof

theorem fieldC_toNat (op : Word) : (fieldC op).toNat = op.toNat / 4096 := by
  have := op.isLt
  simp only [fieldC, BitVec.extractLsb'_toNat, Nat.shiftRight_eq_div_pow]
  omega

theorem fieldX_val (op : Word) : (fieldX op).val = op.toNat / 256 % 16 := by
  show (op.extractLsb' 8 4).toNat = _
  simp only [BitVec.extractLsb'_toNat, Nat.shiftRight_eq_div_pow]

theorem fieldY_val (op : Word) : (fieldY op).val = op.toNat / 16 % 16 := by
  show (op.extractLsb' 4 4).toNat = _
  simp only [BitVec.extractLsb'_toNat, Nat.shiftRight_eq_div_pow]

theorem fieldN_toNat (op : Word) : (fieldN op).toNat = op.toNat % 16 := by
  simp only [fieldN, BitVec.extractLsb'_toNat, Nat.shiftRight_eq_div_pow]
  omega

theorem fieldNN_toNat (op : Word) : (fieldNN op).toNat = op.toNat % 256 := by
  simp only [fieldNN, BitVec.extractLsb'_toNat, Nat.shiftRight_eq_div_pow]
  omega

theorem fieldNNN_toNat (op : Word) : (fieldNNN op).toNat = op.toNat % 4096 := by
  simp only [fieldNNN, BitVec.extractLsb'_toNat, Nat.shiftRight_eq_div_pow]
  omega

theorem joinBytes_toNat (hi lo : Byte) : (joinBytes hi lo).toNat = hi.toNat * 256 + lo.toNat := by
  rw [joinBytes, BitVec.toNat_append, ← Nat.shiftLeft_add_eq_or_of_lt lo.isLt, Nat.shiftLeft_eq]

/-- The bytes of a word, joined again, are the word (20_memory.md R56). -/
theorem joinBytes_highByte_lowByte (w : Word) : joinBytes (highByte w) (lowByte w) = w := by
  apply BitVec.eq_of_toNat_eq
  have := w.isLt
  simp only [joinBytes_toNat, highByte, lowByte, BitVec.extractLsb'_toNat, Nat.shiftRight_eq_div_pow]
  omega

theorem encA_toNat (c : Nibble) (nnn : Addr) : (encA c nnn).toNat = c.toNat * 4096 + nnn.toNat := by
  rw [encA, BitVec.toNat_append, ← Nat.shiftLeft_add_eq_or_of_lt nnn.isLt, Nat.shiftLeft_eq]

theorem encXB_toNat (c : Nibble) (x : Reg) (nn : Byte) :
    (encXB c x nn).toNat = c.toNat * 4096 + x.val * 256 + nn.toNat := by
  rw [encXB, BitVec.toNat_append, BitVec.toNat_append, ← Nat.shiftLeft_add_eq_or_of_lt nn.isLt,
    ← Nat.shiftLeft_add_eq_or_of_lt (BitVec.isLt _), Nat.shiftLeft_eq, Nat.shiftLeft_eq]
  simp only [BitVec.toNat_ofFin]
  omega

theorem encXYN_toNat (c : Nibble) (x y : Reg) (n : Nibble) :
    (encXYN c x y n).toNat = c.toNat * 4096 + x.val * 256 + y.val * 16 + n.toNat := by
  rw [encXYN, BitVec.toNat_append, BitVec.toNat_append, BitVec.toNat_append, ← Nat.shiftLeft_add_eq_or_of_lt n.isLt,
    ← Nat.shiftLeft_add_eq_or_of_lt (BitVec.isLt _), ← Nat.shiftLeft_add_eq_or_of_lt (BitVec.isLt _),
    Nat.shiftLeft_eq, Nat.shiftLeft_eq, Nat.shiftLeft_eq]
  simp only [BitVec.toNat_ofFin]
  omega

/-! ### Format `A` -/

@[simp] theorem fieldC_encA (c : Nibble) (nnn : Addr) : fieldC (encA c nnn) = c := by
  apply BitVec.eq_of_toNat_eq
  have := nnn.isLt
  rw [fieldC_toNat, encA_toNat]
  omega

@[simp] theorem fieldNNN_encA (c : Nibble) (nnn : Addr) : fieldNNN (encA c nnn) = nnn := by
  apply BitVec.eq_of_toNat_eq
  have := nnn.isLt
  rw [fieldNNN_toNat, encA_toNat]
  omega

/-! ### Formats `XB` and `X` -/

@[simp] theorem fieldC_encXB (c : Nibble) (x : Reg) (nn : Byte) : fieldC (encXB c x nn) = c := by
  apply BitVec.eq_of_toNat_eq
  have := nn.isLt
  have := x.isLt
  rw [fieldC_toNat, encXB_toNat]
  omega

@[simp] theorem fieldX_encXB (c : Nibble) (x : Reg) (nn : Byte) : fieldX (encXB c x nn) = x := by
  apply Fin.ext
  have := nn.isLt
  have := x.isLt
  rw [fieldX_val, encXB_toNat]
  omega

@[simp] theorem fieldNN_encXB (c : Nibble) (x : Reg) (nn : Byte) : fieldNN (encXB c x nn) = nn := by
  apply BitVec.eq_of_toNat_eq
  have := nn.isLt
  rw [fieldNN_toNat, encXB_toNat]
  omega

/-! ### Formats `XYN` and `XY` -/

@[simp] theorem fieldC_encXYN (c : Nibble) (x y : Reg) (n : Nibble) : fieldC (encXYN c x y n) = c := by
  apply BitVec.eq_of_toNat_eq
  have := n.isLt
  have := x.isLt
  have := y.isLt
  rw [fieldC_toNat, encXYN_toNat]
  omega

@[simp] theorem fieldX_encXYN (c : Nibble) (x y : Reg) (n : Nibble) : fieldX (encXYN c x y n) = x := by
  apply Fin.ext
  have := n.isLt
  have := x.isLt
  have := y.isLt
  rw [fieldX_val, encXYN_toNat]
  omega

@[simp] theorem fieldY_encXYN (c : Nibble) (x y : Reg) (n : Nibble) : fieldY (encXYN c x y n) = y := by
  apply Fin.ext
  have := n.isLt
  have := y.isLt
  rw [fieldY_val, encXYN_toNat]
  omega

@[simp] theorem fieldN_encXYN (c : Nibble) (x y : Reg) (n : Nibble) : fieldN (encXYN c x y n) = n := by
  apply BitVec.eq_of_toNat_eq
  have := n.isLt
  rw [fieldN_toNat, encXYN_toNat]
  omega

end Sys2Proof
end

