-- ==== Sys2Proof/Laws/State.lean ====
section
/-! SUPPORT. Beside the state: what every update does to every field, by rfl, and what it does to the reads of
registers, memory, cells and keys. -/

namespace Sys2Proof.Machine

variable (s : State)

/-! ### `State.setReg` -/

@[simp] theorem State.setReg_mem (x : Reg) (b : Byte) : (s.setReg x b).mem = s.mem := rfl
@[simp] theorem State.setReg_v (x : Reg) (b : Byte) : (s.setReg x b).v = s.v.set x.val b x.isLt := rfl
@[simp] theorem State.setReg_i (x : Reg) (b : Byte) : (s.setReg x b).i = s.i := rfl
@[simp] theorem State.setReg_pc (x : Reg) (b : Byte) : (s.setReg x b).pc = s.pc := rfl
@[simp] theorem State.setReg_stack (x : Reg) (b : Byte) : (s.setReg x b).stack = s.stack := rfl
@[simp] theorem State.setReg_sp (x : Reg) (b : Byte) : (s.setReg x b).sp = s.sp := rfl
@[simp] theorem State.setReg_dt (x : Reg) (b : Byte) : (s.setReg x b).dt = s.dt := rfl
@[simp] theorem State.setReg_st (x : Reg) (b : Byte) : (s.setReg x b).st = s.st := rfl
@[simp] theorem State.setReg_fb (x : Reg) (b : Byte) : (s.setReg x b).fb = s.fb := rfl
@[simp] theorem State.setReg_keys (x : Reg) (b : Byte) : (s.setReg x b).keys = s.keys := rfl
@[simp] theorem State.setReg_fault (x : Reg) (b : Byte) : (s.setReg x b).fault = s.fault := rfl
@[simp] theorem State.setReg_draws (x : Reg) (b : Byte) : (s.setReg x b).draws = s.draws := rfl

/-! ### `State.setRegFlag` -/

@[simp] theorem State.setRegFlag_mem (x : Reg) (r f : Byte) : (s.setRegFlag x r f).mem = s.mem := rfl
@[simp] theorem State.setRegFlag_i (x : Reg) (r f : Byte) : (s.setRegFlag x r f).i = s.i := rfl
@[simp] theorem State.setRegFlag_pc (x : Reg) (r f : Byte) : (s.setRegFlag x r f).pc = s.pc := rfl
@[simp] theorem State.setRegFlag_stack (x : Reg) (r f : Byte) : (s.setRegFlag x r f).stack = s.stack := rfl
@[simp] theorem State.setRegFlag_sp (x : Reg) (r f : Byte) : (s.setRegFlag x r f).sp = s.sp := rfl
@[simp] theorem State.setRegFlag_dt (x : Reg) (r f : Byte) : (s.setRegFlag x r f).dt = s.dt := rfl
@[simp] theorem State.setRegFlag_st (x : Reg) (r f : Byte) : (s.setRegFlag x r f).st = s.st := rfl
@[simp] theorem State.setRegFlag_fb (x : Reg) (r f : Byte) : (s.setRegFlag x r f).fb = s.fb := rfl
@[simp] theorem State.setRegFlag_keys (x : Reg) (r f : Byte) : (s.setRegFlag x r f).keys = s.keys := rfl
@[simp] theorem State.setRegFlag_fault (x : Reg) (r f : Byte) : (s.setRegFlag x r f).fault = s.fault := rfl
@[simp] theorem State.setRegFlag_draws (x : Reg) (r f : Byte) : (s.setRegFlag x r f).draws = s.draws := rfl

/-! ### `State.setI` -/

@[simp] theorem State.setI_mem (w : Word) : (s.setI w).mem = s.mem := rfl
@[simp] theorem State.setI_v (w : Word) : (s.setI w).v = s.v := rfl
@[simp] theorem State.setI_i (w : Word) : (s.setI w).i = w := rfl
@[simp] theorem State.setI_pc (w : Word) : (s.setI w).pc = s.pc := rfl
@[simp] theorem State.setI_stack (w : Word) : (s.setI w).stack = s.stack := rfl
@[simp] theorem State.setI_sp (w : Word) : (s.setI w).sp = s.sp := rfl
@[simp] theorem State.setI_dt (w : Word) : (s.setI w).dt = s.dt := rfl
@[simp] theorem State.setI_st (w : Word) : (s.setI w).st = s.st := rfl
@[simp] theorem State.setI_fb (w : Word) : (s.setI w).fb = s.fb := rfl
@[simp] theorem State.setI_keys (w : Word) : (s.setI w).keys = s.keys := rfl
@[simp] theorem State.setI_fault (w : Word) : (s.setI w).fault = s.fault := rfl
@[simp] theorem State.setI_draws (w : Word) : (s.setI w).draws = s.draws := rfl

/-! ### `State.jump` -/

@[simp] theorem State.jump_mem (w : Word) : (s.jump w).mem = s.mem := rfl
@[simp] theorem State.jump_v (w : Word) : (s.jump w).v = s.v := rfl
@[simp] theorem State.jump_i (w : Word) : (s.jump w).i = s.i := rfl
@[simp] theorem State.jump_pc (w : Word) : (s.jump w).pc = w := rfl
@[simp] theorem State.jump_stack (w : Word) : (s.jump w).stack = s.stack := rfl
@[simp] theorem State.jump_sp (w : Word) : (s.jump w).sp = s.sp := rfl
@[simp] theorem State.jump_dt (w : Word) : (s.jump w).dt = s.dt := rfl
@[simp] theorem State.jump_st (w : Word) : (s.jump w).st = s.st := rfl
@[simp] theorem State.jump_fb (w : Word) : (s.jump w).fb = s.fb := rfl
@[simp] theorem State.jump_keys (w : Word) : (s.jump w).keys = s.keys := rfl
@[simp] theorem State.jump_fault (w : Word) : (s.jump w).fault = s.fault := rfl
@[simp] theorem State.jump_draws (w : Word) : (s.jump w).draws = s.draws := rfl

/-! ### `State.advance` -/

@[simp] theorem State.advance_mem : s.advance.mem = s.mem := rfl
@[simp] theorem State.advance_v : s.advance.v = s.v := rfl
@[simp] theorem State.advance_i : s.advance.i = s.i := rfl
@[simp] theorem State.advance_pc : s.advance.pc = s.pc + 2 := rfl
@[simp] theorem State.advance_stack : s.advance.stack = s.stack := rfl
@[simp] theorem State.advance_sp : s.advance.sp = s.sp := rfl
@[simp] theorem State.advance_dt : s.advance.dt = s.dt := rfl
@[simp] theorem State.advance_st : s.advance.st = s.st := rfl
@[simp] theorem State.advance_fb : s.advance.fb = s.fb := rfl
@[simp] theorem State.advance_keys : s.advance.keys = s.keys := rfl
@[simp] theorem State.advance_fault : s.advance.fault = s.fault := rfl
@[simp] theorem State.advance_draws : s.advance.draws = s.draws := rfl

/-! ### `State.skip` -/

@[simp] theorem State.skip_mem : s.skip.mem = s.mem := rfl
@[simp] theorem State.skip_v : s.skip.v = s.v := rfl
@[simp] theorem State.skip_i : s.skip.i = s.i := rfl
@[simp] theorem State.skip_pc : s.skip.pc = s.pc + 2 := rfl
@[simp] theorem State.skip_stack : s.skip.stack = s.stack := rfl
@[simp] theorem State.skip_sp : s.skip.sp = s.sp := rfl
@[simp] theorem State.skip_dt : s.skip.dt = s.dt := rfl
@[simp] theorem State.skip_st : s.skip.st = s.st := rfl
@[simp] theorem State.skip_fb : s.skip.fb = s.fb := rfl
@[simp] theorem State.skip_keys : s.skip.keys = s.keys := rfl
@[simp] theorem State.skip_fault : s.skip.fault = s.fault := rfl
@[simp] theorem State.skip_draws : s.skip.draws = s.draws := rfl

/-! ### `State.takeFault` -/

@[simp] theorem State.takeFault_mem (a : Word) (f : Fault) : (s.takeFault a f).mem = s.mem := rfl
@[simp] theorem State.takeFault_v (a : Word) (f : Fault) : (s.takeFault a f).v = s.v := rfl
@[simp] theorem State.takeFault_i (a : Word) (f : Fault) : (s.takeFault a f).i = s.i := rfl
@[simp] theorem State.takeFault_pc (a : Word) (f : Fault) : (s.takeFault a f).pc = a := rfl
@[simp] theorem State.takeFault_stack (a : Word) (f : Fault) : (s.takeFault a f).stack = s.stack := rfl
@[simp] theorem State.takeFault_sp (a : Word) (f : Fault) : (s.takeFault a f).sp = s.sp := rfl
@[simp] theorem State.takeFault_dt (a : Word) (f : Fault) : (s.takeFault a f).dt = s.dt := rfl
@[simp] theorem State.takeFault_st (a : Word) (f : Fault) : (s.takeFault a f).st = s.st := rfl
@[simp] theorem State.takeFault_fb (a : Word) (f : Fault) : (s.takeFault a f).fb = s.fb := rfl
@[simp] theorem State.takeFault_keys (a : Word) (f : Fault) : (s.takeFault a f).keys = s.keys := rfl
@[simp] theorem State.takeFault_fault (a : Word) (f : Fault) : (s.takeFault a f).fault = some f := rfl
@[simp] theorem State.takeFault_draws (a : Word) (f : Fault) : (s.takeFault a f).draws = s.draws := rfl

/-! ### `State.setDt` -/

@[simp] theorem State.setDt_mem (b : Byte) : (s.setDt b).mem = s.mem := rfl
@[simp] theorem State.setDt_v (b : Byte) : (s.setDt b).v = s.v := rfl
@[simp] theorem State.setDt_i (b : Byte) : (s.setDt b).i = s.i := rfl
@[simp] theorem State.setDt_pc (b : Byte) : (s.setDt b).pc = s.pc := rfl
@[simp] theorem State.setDt_stack (b : Byte) : (s.setDt b).stack = s.stack := rfl
@[simp] theorem State.setDt_sp (b : Byte) : (s.setDt b).sp = s.sp := rfl
@[simp] theorem State.setDt_dt (b : Byte) : (s.setDt b).dt = b := rfl
@[simp] theorem State.setDt_st (b : Byte) : (s.setDt b).st = s.st := rfl
@[simp] theorem State.setDt_fb (b : Byte) : (s.setDt b).fb = s.fb := rfl
@[simp] theorem State.setDt_keys (b : Byte) : (s.setDt b).keys = s.keys := rfl
@[simp] theorem State.setDt_fault (b : Byte) : (s.setDt b).fault = s.fault := rfl
@[simp] theorem State.setDt_draws (b : Byte) : (s.setDt b).draws = s.draws := rfl

/-! ### `State.setSt` -/

@[simp] theorem State.setSt_mem (b : Byte) : (s.setSt b).mem = s.mem := rfl
@[simp] theorem State.setSt_v (b : Byte) : (s.setSt b).v = s.v := rfl
@[simp] theorem State.setSt_i (b : Byte) : (s.setSt b).i = s.i := rfl
@[simp] theorem State.setSt_pc (b : Byte) : (s.setSt b).pc = s.pc := rfl
@[simp] theorem State.setSt_stack (b : Byte) : (s.setSt b).stack = s.stack := rfl
@[simp] theorem State.setSt_sp (b : Byte) : (s.setSt b).sp = s.sp := rfl
@[simp] theorem State.setSt_dt (b : Byte) : (s.setSt b).dt = s.dt := rfl
@[simp] theorem State.setSt_st (b : Byte) : (s.setSt b).st = b := rfl
@[simp] theorem State.setSt_fb (b : Byte) : (s.setSt b).fb = s.fb := rfl
@[simp] theorem State.setSt_keys (b : Byte) : (s.setSt b).keys = s.keys := rfl
@[simp] theorem State.setSt_fault (b : Byte) : (s.setSt b).fault = s.fault := rfl
@[simp] theorem State.setSt_draws (b : Byte) : (s.setSt b).draws = s.draws := rfl

/-! ### `State.tick` -/

@[simp] theorem State.tick_mem : s.tick.mem = s.mem := rfl
@[simp] theorem State.tick_v : s.tick.v = s.v := rfl
@[simp] theorem State.tick_i : s.tick.i = s.i := rfl
@[simp] theorem State.tick_pc : s.tick.pc = s.pc := rfl
@[simp] theorem State.tick_stack : s.tick.stack = s.stack := rfl
@[simp] theorem State.tick_sp : s.tick.sp = s.sp := rfl
@[simp] theorem State.tick_dt : s.tick.dt = tickDown s.dt := rfl
@[simp] theorem State.tick_st : s.tick.st = tickDown s.st := rfl
@[simp] theorem State.tick_fb : s.tick.fb = s.fb := rfl
@[simp] theorem State.tick_keys : s.tick.keys = s.keys := rfl
@[simp] theorem State.tick_fault : s.tick.fault = s.fault := rfl
@[simp] theorem State.tick_draws : s.tick.draws = s.draws := rfl

/-! ### `State.nextDraw` -/

@[simp] theorem State.nextDraw_mem : s.nextDraw.mem = s.mem := rfl
@[simp] theorem State.nextDraw_v : s.nextDraw.v = s.v := rfl
@[simp] theorem State.nextDraw_i : s.nextDraw.i = s.i := rfl
@[simp] theorem State.nextDraw_pc : s.nextDraw.pc = s.pc := rfl
@[simp] theorem State.nextDraw_stack : s.nextDraw.stack = s.stack := rfl
@[simp] theorem State.nextDraw_sp : s.nextDraw.sp = s.sp := rfl
@[simp] theorem State.nextDraw_dt : s.nextDraw.dt = s.dt := rfl
@[simp] theorem State.nextDraw_st : s.nextDraw.st = s.st := rfl
@[simp] theorem State.nextDraw_fb : s.nextDraw.fb = s.fb := rfl
@[simp] theorem State.nextDraw_keys : s.nextDraw.keys = s.keys := rfl
@[simp] theorem State.nextDraw_fault : s.nextDraw.fault = s.fault := rfl
@[simp] theorem State.nextDraw_draws : s.nextDraw.draws = s.draws + 1 := rfl

/-! ### Reads after updates -/

theorem State.reg_eq_of_v {s t : State} (h : t.v = s.v) (r : Reg) : t.reg r = s.reg r := by simp only [State.reg, h]
theorem State.byteAt_eq_of_mem {s t : State} (h : t.mem = s.mem) (a : Nat) : t.byteAt a = s.byteAt a := by
  simp only [State.byteAt, h]
theorem State.cell_eq_of_fb {s t : State} (h : t.fb = s.fb) (cx : Fin 64) (cy : Fin 32) :
    t.cell cx cy = s.cell cx cy := by simp only [State.cell, h]
theorem State.keyDown_eq_of_keys {s t : State} (h : t.keys = s.keys) (k : Key) : t.keyDown k = s.keyDown k := by
  simp only [State.keyDown, h]

@[simp] theorem State.reg_setReg_same (x : Reg) (b : Byte) : (s.setReg x b).reg x = b := by
  simp [State.reg, State.setReg]

theorem State.reg_setReg_of_ne {x r : Reg} (h : r ≠ x) (b : Byte) : (s.setReg x b).reg r = s.reg r := by
  simp only [State.reg, State.setReg, Fin.getElem_fin]
  exact Vector.getElem_set_ne x.isLt r.isLt fun e => h (Fin.ext e.symm)

@[simp] theorem State.reg_setRegFlag_vf (x : Reg) (b f : Byte) : (s.setRegFlag x b f).reg 15 = f :=
  State.reg_setReg_same _ 15 f

theorem State.reg_setRegFlag_result {x : Reg} (h : x ≠ 15) (b f : Byte) : (s.setRegFlag x b f).reg x = b := by
  rw [State.setRegFlag, State.reg_setReg_of_ne _ h, State.reg_setReg_same]

theorem State.reg_setRegFlag_of_ne {x r : Reg} (hx : r ≠ x) (hf : r ≠ 15) (b f : Byte) :
    (s.setRegFlag x b f).reg r = s.reg r := by
  rw [State.setRegFlag, State.reg_setReg_of_ne _ hf, State.reg_setReg_of_ne _ hx]

@[simp] theorem State.reg_setI (w : Word) (r : Reg) : (s.setI w).reg r = s.reg r := rfl
@[simp] theorem State.reg_jump (w : Word) (r : Reg) : (s.jump w).reg r = s.reg r := rfl
@[simp] theorem State.reg_advance (r : Reg) : s.advance.reg r = s.reg r := rfl
@[simp] theorem State.reg_skip (r : Reg) : s.skip.reg r = s.reg r := rfl
@[simp] theorem State.reg_takeFault (a : Word) (f : Fault) (r : Reg) : (s.takeFault a f).reg r = s.reg r := rfl
@[simp] theorem State.reg_tick (r : Reg) : s.tick.reg r = s.reg r := rfl
@[simp] theorem State.byteAt_advance (a : Nat) : s.advance.byteAt a = s.byteAt a := rfl
@[simp] theorem State.byteAt_tick (a : Nat) : s.tick.byteAt a = s.byteAt a := rfl

end Sys2Proof.Machine
end

