-- ==== Sys2Proof/Laws/Display.lean ====
section
/-! SUPPORT. What flipping one cell does to every cell: the one fact about the framebuffer that the sprite loop is
built on. -/

namespace Sys2Proof.Machine

theorem cellOf_flipCell (fb : Framebuffer) (cx dx : Fin 64) (cy dy : Fin 32) :
    cellOf (flipCell fb cx cy) dx dy = if dx = cx ∧ dy = cy then !cellOf fb dx dy else cellOf fb dx dy := by
  simp only [cellOf, flipCell, Vector.get_eq_getElem, Vector.getElem_set, Fin.ext_iff]
  by_cases hy : cy.val = dy.val
  · by_cases hx : cx.val = dx.val
    · simp [hy, hx]
    · simp [hy, hx, Ne.symm hx]
  · simp [hy, Ne.symm hy]

/-- A clear sprite bit leaves the drawing as it is (41_display.md R101). -/
theorem drawPixel_clear (vx vy row : Byte) (j : Nat) (d : Drawing) (i : Nat) (h : spriteBit row i = false) :
    drawPixel vx vy row j d i = d := by rw [drawPixel, if_neg (by rw [h]; decide)]

/-- A set sprite bit flips its cell and notes whether it was on (41_display.md R101, R104). -/
theorem drawPixel_set (vx vy row : Byte) (j : Nat) (d : Drawing) (i : Nat) (h : spriteBit row i = true) :
    drawPixel vx vy row j d i =
      (flipCell d.1 (spriteColumn vx i) (spriteRow vy j), d.2 || cellOf d.1 (spriteColumn vx i) (spriteRow vy j)) := by
  rw [drawPixel, if_pos h]

end Sys2Proof.Machine
end

