-- ==== Sys2Proof/Laws/Memory.lean ====
section
/-! SUPPORT. The laws of memory: a read after a write, and that every operation keeps the canonical form. -/

namespace Sys2Proof.Machine

@[simp] theorem Memory.read_nil (a : Nat) : Memory.read [] a = Memory.unlisted a := rfl

theorem Memory.read_pair (c : Nat) (d : Byte) (m : Memory) (a : Nat) :
    Memory.read ((c, d) :: m) a = if a = c then d else Memory.read m a := rfl

/-- An address below every listed one reads as unlisted. -/
theorem Memory.read_of_lt {lo : Nat} {m : Memory} (h : Memory.wfFrom lo m = true) {a : Nat} (ha : a < lo) :
    Memory.read m a = Memory.unlisted a := by
  induction m generalizing lo with
  | nil => rfl
  | cons p m ih =>
    obtain ⟨c, d⟩ := p
    simp only [Memory.wfFrom, Bool.and_eq_true, decide_eq_true_eq] at h
    obtain ⟨⟨⟨hlo, -⟩, -⟩, hm⟩ := h
    rw [Memory.read_pair, if_neg (by omega)]
    exact ih hm (by omega)

theorem Memory.read_cons_same {m : Memory} {a : Nat} (h : Memory.read m a = Memory.unlisted a) (b : Byte) :
    Memory.read (Memory.cons a b m) a = b := by
  unfold Memory.cons
  split
  · next e => rw [h, e]
  · rw [Memory.read_pair, if_pos rfl]

theorem Memory.read_cons_of_ne (m : Memory) {a c : Nat} (h : c ≠ a) (b : Byte) :
    Memory.read (Memory.cons a b m) c = Memory.read m c := by
  unfold Memory.cons
  split
  · rfl
  · rw [Memory.read_pair, if_neg h]

/-- A write leaves every other address alone, in any memory. -/
theorem Memory.read_write_of_ne (m : Memory) {a c : Nat} (h : c ≠ a) (b : Byte) :
    Memory.read (Memory.write m a b) c = Memory.read m c := by
  induction m with
  | nil => exact Memory.read_cons_of_ne [] h b
  | cons p m ih =>
    obtain ⟨e, d⟩ := p
    simp only [Memory.write]
    split
    · exact Memory.read_cons_of_ne _ h b
    · split
      · next he => subst he; rw [Memory.read_cons_of_ne m h, Memory.read_pair, if_neg h]
      · rw [Memory.read_pair, Memory.read_pair, ih]

theorem Memory.read_write_same_from {lo : Nat} {m : Memory} (hm : Memory.wfFrom lo m = true) (a : Nat) (b : Byte) :
    Memory.read (Memory.write m a b) a = b := by
  induction m generalizing lo with
  | nil => exact Memory.read_cons_same rfl b
  | cons p m ih =>
    obtain ⟨e, d⟩ := p
    have hm' := hm
    simp only [Memory.wfFrom, Bool.and_eq_true, decide_eq_true_eq] at hm
    obtain ⟨⟨⟨hlo, htop⟩, hd⟩, htl⟩ := hm
    simp only [Memory.write]
    split
    · next hlt =>
      refine Memory.read_cons_same ?_ b
      rw [Memory.read_pair, if_neg (by omega)]
      exact Memory.read_of_lt htl (by omega)
    · split
      · next he => subst he; exact Memory.read_cons_same (Memory.read_of_lt htl (by omega)) b
      · next hne => rw [Memory.read_pair, if_neg hne]; exact ih htl

/-- A read after a write to the same address gives the byte written. -/
theorem Memory.read_write_same {m : Memory} (hm : m.wf = true) (a : Nat) (b : Byte) : (m.write a b).read a = b :=
  Memory.read_write_same_from hm a b

theorem Memory.wfFrom_mono {lo lo' : Nat} (h : lo' ≤ lo) {m : Memory} (hm : Memory.wfFrom lo m = true) :
    Memory.wfFrom lo' m = true := by
  cases m with
  | nil => rfl
  | cons p m =>
    simp only [Memory.wfFrom, Bool.and_eq_true, decide_eq_true_eq] at hm ⊢
    exact ⟨⟨⟨by omega, hm.1.1.2⟩, hm.1.2⟩, hm.2⟩

theorem Memory.wfFrom_cons {lo a : Nat} (hlo : lo ≤ a) (htop : a ≤ Config.memTop) (b : Byte) {m : Memory}
    (hm : Memory.wfFrom (a + 1) m = true) : Memory.wfFrom lo (Memory.cons a b m) = true := by
  unfold Memory.cons
  split
  · exact Memory.wfFrom_mono (by omega) hm
  · next hb =>
    simp only [Memory.wfFrom, Bool.and_eq_true, decide_eq_true_eq, bne_iff_ne]
    exact ⟨⟨⟨hlo, htop⟩, hb⟩, hm⟩

theorem Memory.wfFrom_write {lo a : Nat} (hlo : lo ≤ a) (htop : a ≤ Config.memTop) (b : Byte) {m : Memory}
    (hm : Memory.wfFrom lo m = true) : Memory.wfFrom lo (Memory.write m a b) = true := by
  induction m generalizing lo with
  | nil => exact Memory.wfFrom_cons hlo htop b rfl
  | cons p m ih =>
    obtain ⟨e, d⟩ := p
    have h := hm
    simp only [Memory.wfFrom, Bool.and_eq_true, decide_eq_true_eq] at h
    obtain ⟨⟨⟨h1, h2⟩, h3⟩, h4⟩ := h
    simp only [Memory.write]
    split
    · next hlt =>
      refine Memory.wfFrom_cons hlo htop b ?_
      simp only [Memory.wfFrom, Bool.and_eq_true, decide_eq_true_eq]
      exact ⟨⟨⟨by omega, h2⟩, h3⟩, h4⟩
    · split
      · next he => subst he; exact Memory.wfFrom_cons hlo htop b h4
      · simp only [Memory.wfFrom, Bool.and_eq_true, decide_eq_true_eq]
        exact ⟨⟨⟨h1, h2⟩, h3⟩, ih (by omega) h4⟩

/-- A write in the address space keeps the canonical form. -/
theorem Memory.wf_write {m : Memory} (hm : m.wf = true) {a : Nat} (ha : a ≤ Config.memTop) (b : Byte) :
    (m.write a b).wf = true :=
  Memory.wfFrom_write (Nat.zero_le a) ha b hm

/-- Writing a block that lies in the address space keeps the canonical form. -/
theorem Memory.wf_writeBytes {m : Memory} (hm : m.wf = true) {a : Nat} {bs : List Byte}
    (ha : a + bs.length ≤ Config.memTop + 1) : (m.writeBytes a bs).wf = true := by
  induction bs generalizing m a with
  | nil => exact hm
  | cons b bs ih =>
    rw [List.length_cons] at ha
    exact ih (Memory.wf_write hm (by omega) b) (by omega)

/-- Writing a block leaves the addresses outside it alone. -/
theorem Memory.read_writeBytes_outside (m : Memory) {a c : Nat} {bs : List Byte}
    (h : c < a ∨ a + bs.length ≤ c) : (m.writeBytes a bs).read c = m.read c := by
  induction bs generalizing m a with
  | nil => rfl
  | cons b bs ih =>
    rw [List.length_cons] at h
    rw [Memory.writeBytes, ih _ (by omega), Memory.read_write_of_ne m (by omega)]

/-- Reading in a block just written gives the bytes written. -/
theorem Memory.read_writeBytes_inside {m : Memory} (hm : m.wf = true) {a : Nat} {bs : List Byte}
    (ha : a + bs.length ≤ Config.memTop + 1) {k : Nat} (hk : k < bs.length) :
    (m.writeBytes a bs).read (a + k) = bs[k] := by
  induction bs generalizing m a k with
  | nil => exact absurd hk (Nat.not_lt_zero k)
  | cons b bs ih =>
    rw [List.length_cons] at ha
    rw [Memory.writeBytes]
    cases k with
    | zero =>
      rw [Memory.read_writeBytes_outside _ (by omega)]
      exact Memory.read_write_same hm a b
    | succ k =>
      rw [show a + (k + 1) = a + 1 + k by omega, ih (Memory.wf_write hm (by omega) b) (by omega)
        (by simpa using hk)]
      rfl

end Sys2Proof.Machine
end

