-- ==== Sys2Proof/Laws/Ops.lean ====
section
/-! SUPPORT. One lemma for each shared operation, saying everything it can do; proofs cite these instead of unfolding
the operation. -/

namespace Sys2Proof.Machine

/-! ### The address decoder and the block transfers -/

/-- The first address of a block above 0xFFF, if there is one, is the larger of its base and 0x1000. -/
theorem find_blockAddrs (base len : Nat) :
    (blockAddrs base len).find? (Config.memTop < ·) =
      if len = 0 ∨ base + len ≤ 0x1000 then none else some (max base 0x1000) := by
  induction len with
  | zero => rfl
  | succ len ih =>
    rw [blockAddrs, List.range_succ, List.map_append, List.find?_append, ← blockAddrs, ih]
    by_cases h : len = 0 ∨ base + len ≤ 0x1000
    · rw [if_pos h]
      by_cases h' : base + (len + 1) ≤ 0x1000
      · rw [if_pos (Or.inr h')]
        simp only [Option.none_or, List.map_cons, List.map_nil, List.find?_cons]
        rw [decide_eq_false (by simp only [Config.memTop]; omega)]
        rfl
      · rw [if_neg (by omega)]
        simp only [Option.none_or, List.map_cons, List.map_nil, List.find?_cons]
        rw [decide_eq_true (by simp only [Config.memTop]; omega)]
        simp only [Option.some.injEq]
        omega
    · rw [if_neg h, if_neg (by omega)]
      rfl

/-- A block passes the address decoder exactly when it is empty or ends at 0xFFF or below. -/
theorem checkBlock_ok {base len : Nat} (h : len = 0 ∨ base + len ≤ 0x1000) (kind : AccessKind) :
    checkBlock base len kind = none := by
  rw [checkBlock, find_blockAddrs, if_pos h]
  rfl

/-- A block that does not pass reports its lowest invalid address. -/
theorem checkBlock_error {base len : Nat} (h : len ≠ 0) (h' : 0x1000 < base + len) (kind : AccessKind) :
    checkBlock base len kind = some (.memoryOutOfBounds (max base 0x1000) kind) := by
  rw [checkBlock, find_blockAddrs, if_neg (by omega)]
  rfl

theorem readBlock_ok (s : State) {base len : Nat} (h : len = 0 ∨ base + len ≤ 0x1000) (kind : AccessKind) :
    s.readBlock base len kind = .ok ((blockAddrs base len).map s.byteAt) := by
  rw [State.readBlock, checkBlock_ok h]

theorem readBlock_error (s : State) {base len : Nat} (h : len ≠ 0) (h' : 0x1000 < base + len) (kind : AccessKind) :
    s.readBlock base len kind = .error (.memoryOutOfBounds (max base 0x1000) kind) := by
  rw [State.readBlock, checkBlock_error h h']

theorem writeBlock_ok (s : State) {base : Nat} {bs : List Byte} (h : bs.length = 0 ∨ base + bs.length ≤ 0x1000) :
    s.writeBlock base bs = .ok { s with mem := s.mem.writeBytes base bs } := by
  rw [State.writeBlock, checkBlock_ok h]

theorem writeBlock_error (s : State) {base : Nat} {bs : List Byte} (h : bs.length ≠ 0)
    (h' : 0x1000 < base + bs.length) :
    s.writeBlock base bs = .error (.memoryOutOfBounds (max base 0x1000) .write) := by
  rw [State.writeBlock, checkBlock_error h h']

/-- Whatever a block write answers with `ok`, only memory has changed, and it is still canonical. -/
theorem writeBlock_cases {s t : State} {base : Nat} {bs : List Byte} (h : s.writeBlock base bs = .ok t) :
    t = { s with mem := s.mem.writeBytes base bs } ∧ (s.mem.wf = true → t.mem.wf = true) := by
  by_cases hb : bs.length = 0 ∨ base + bs.length ≤ 0x1000
  · rw [writeBlock_ok s hb] at h
    cases h
    refine ⟨rfl, fun hm => ?_⟩
    rcases hb with hb | hb
    · rw [List.length_eq_zero_iff.mp hb]; exact hm
    · exact Memory.wf_writeBytes hm (by simp only [Config.memTop]; omega)
  · rw [writeBlock_error s (by omega) (by omega)] at h
    cases h

/-! ### The call stack -/

theorem push_ok (s : State) (w : Word) (h : s.sp.val < 16) :
    s.push w = .ok { s with stack := s.stack.set s.sp.val w h, sp := ⟨s.sp.val + 1, by omega⟩ } :=
  dif_pos h

theorem push_full (s : State) (w : Word) (h : s.sp.val = 16) : s.push w = .error (.stackOverflow s.instrAddr) :=
  dif_neg (by omega)

theorem pop_ok (s : State) (h : 0 < s.sp.val) :
    s.pop = .ok (s.stack[s.sp.val - 1]'(by omega), { s with sp := ⟨s.sp.val - 1, by omega⟩ }) :=
  dif_pos h

theorem pop_empty (s : State) (h : s.sp.val = 0) : s.pop = .error (.stackUnderflow s.instrAddr) :=
  dif_neg (by omega)

/-! ### Skips, keys, timers, fetch -/

/-- A skip changes the PC alone. -/
theorem skipIf_eq (c : Bool) (s : State) : skipIf c s = { s with pc := if c then s.pc + 2 else s.pc } := by
  cases c <;> rfl

theorem keyOperand_ok {b : Byte} (h : b.toNat < 16) : keyOperand b = .ok ⟨b.toNat, h⟩ := dif_pos h

theorem keyOperand_error {b : Byte} (h : ¬ b.toNat < 16) : keyOperand b = .error (.keyOutOfRange b) := dif_neg h

/-- A timer falls by one and stops at 0. -/
theorem tickDown_toNat (t : Byte) : (tickDown t).toNat = t.toNat - 1 := by
  by_cases h : t = 0
  · subst h; rfl
  · have h0 : t.toNat ≠ 0 := fun e => h (BitVec.eq_of_toNat_eq e)
    have := t.isLt
    rw [tickDown, if_neg h, BitVec.toNat_sub, show (1 : Byte).toNat = 1 from rfl]
    omega

theorem fetch_ok (s : State) (h : s.pc.toNat ≤ 0xFFE) :
    s.fetch = .ok (joinBytes (s.byteAt s.pc.toNat) (s.byteAt (s.pc.toNat + 1))) := by
  rw [State.fetch, checkBlock_ok (by omega)]

theorem fetch_error (s : State) (h : 0xFFE < s.pc.toNat) :
    s.fetch = .error (.memoryOutOfBounds (max s.pc.toNat 0x1000) .fetch) := by
  rw [State.fetch, checkBlock_error (by omega) (by omega)]

/-- Loading consecutive registers changes the register file alone. -/
theorem setRegsFrom_eq (s : State) (k : Nat) (bs : List Byte) :
    s.setRegsFrom k bs = { s with v := (s.setRegsFrom k bs).v } := by
  induction bs generalizing s k with
  | nil => rfl
  | cons b bs ih => rw [State.setRegsFrom, ih]

/-- Register `r` after loading `bs` into the registers from `k` on: its byte, where there is one. -/
theorem reg_setRegsFrom (s : State) (k : Nat) (bs : List Byte) (r : Reg) :
    (s.setRegsFrom k bs).reg r =
      if h : k ≤ r.val ∧ r.val < k + bs.length then bs[r.val - k]'(by omega) else s.reg r := by
  induction bs generalizing s k with
  | nil => rw [dif_neg (by simp only [List.length_nil]; omega)]; rfl
  | cons b bs ih =>
    rw [State.setRegsFrom, ih]
    simp only [List.length_cons]
    by_cases h : k + 1 ≤ r.val ∧ r.val < k + 1 + bs.length
    · rw [dif_pos h, dif_pos (by omega)]
      rw [List.getElem_cons, dif_neg (by omega)]
      congr 1
    · rw [dif_neg h]
      by_cases hk : r.val = k
      · rw [dif_pos (by omega)]
        subst hk
        simp [State.reg]
      · rw [dif_neg (by omega)]
        simp only [State.reg, Fin.getElem_fin]
        exact Vector.getElem_setIfInBounds_ne r.isLt (Ne.symm hk)

end Sys2Proof.Machine
end

