-- ==== Sys2Proof/Laws/Frames.lean ====
section
/-! SUPPORT. The frame of each update of the state: what it sets, and that it leaves every other part as it was. -/

namespace Sys2Proof.Machine

theorem SameBut.refl (ps : List Part) (s : State) : SameBut ps s s := by
  intro p _
  cases p <;> first | exact fun _ => rfl | exact fun _ _ => rfl | rfl

theorem SameBut.mono {ps qs : List Part} {s t : State} (h : SameBut ps s t) (hs : ∀ p ∈ ps, p ∈ qs) :
    SameBut qs s t := fun p hp => h p fun hp' => hp (hs p hp')

theorem setsReg_setReg (s : State) (x : Reg) (b : Byte) : SetsReg x b s (s.setReg x b) := by
  refine ⟨State.reg_setReg_same s x b, fun r hr => State.reg_setReg_of_ne s hr b, fun p hp => ?_⟩
  cases p <;> first | exact absurd (by decide) hp | exact fun _ => rfl | exact fun _ _ => rfl | rfl

theorem setsRegFlag_setRegFlag (s : State) (x : Reg) (b f : Byte) : SetsRegFlag x b f s (s.setRegFlag x b f) := by
  refine ⟨State.reg_setRegFlag_vf s x b f, fun h => State.reg_setRegFlag_result s h b f,
    fun r hx hf => State.reg_setRegFlag_of_ne s hx hf b f, fun p hp => ?_⟩
  cases p <;> first | exact absurd (by decide) hp | exact fun _ => rfl | exact fun _ _ => rfl | rfl

theorem setsPc_jump (s : State) (w : Word) : SetsPc w s (s.jump w) := by
  refine ⟨rfl, fun p hp => ?_⟩
  cases p <;> first | exact absurd (by decide) hp | exact fun _ => rfl | exact fun _ _ => rfl | rfl

theorem setsPc_skipIf (c : Bool) (s : State) : SetsPc (if c then s.pc + 2 else s.pc) s (skipIf c s) := by
  rw [skipIf_eq]
  exact setsPc_jump s _

theorem sameBut_setI (s : State) (w : Word) : SameBut [.i] s (s.setI w) := by
  intro p hp
  cases p <;> first | exact absurd (by decide) hp | exact fun _ => rfl | exact fun _ _ => rfl | rfl

theorem sameBut_setDt (s : State) (b : Byte) : SameBut [.dt] s (s.setDt b) := by
  intro p hp
  cases p <;> first | exact absurd (by decide) hp | exact fun _ => rfl | exact fun _ _ => rfl | rfl

theorem sameBut_setSt (s : State) (b : Byte) : SameBut [.st] s (s.setSt b) := by
  intro p hp
  cases p <;> first | exact absurd (by decide) hp | exact fun _ => rfl | exact fun _ _ => rfl | rfl

theorem sameBut_tick (s : State) : SameBut [.dt, .st] s s.tick := by
  intro p hp
  cases p <;> first | exact absurd (by decide) hp | exact fun _ => rfl | exact fun _ _ => rfl | rfl

theorem sameBut_mem (s : State) (m : Memory) : SameBut [.mem] s { s with mem := m } := by
  intro p hp
  cases p <;> first | exact absurd (by decide) hp | exact fun _ => rfl | exact fun _ _ => rfl | rfl

theorem sameBut_setRegsFrom (s : State) (k : Nat) (bs : List Byte) : SameBut [.regs] s (s.setRegsFrom k bs) := by
  rw [setRegsFrom_eq]
  intro p hp
  cases p <;> first | exact absurd (by decide) hp | exact fun _ => rfl | exact fun _ _ => rfl | rfl

theorem sameBut_takeFault (s : State) (a : Word) (f : Fault) : SameBut [.pc, .fault] s (s.takeFault a f) := by
  intro p hp
  cases p <;> first | exact absurd (by decide) hp | exact fun _ => rfl | exact fun _ _ => rfl | rfl

/-- A block write that lies in memory changes the block's bytes and nothing else. -/
theorem writeBlock_spec {s : State} (hm : s.MemCanonical) {base : Nat} {bs : List Byte}
    (hb : base + bs.length ≤ 0x1000) :
    ∃ t, s.writeBlock base bs = .ok t ∧ (∀ (k : Nat) (hk : k < bs.length), t.byteAt (base + k) = bs[k]) ∧
      (∀ a, a < base ∨ base + bs.length ≤ a → t.byteAt a = s.byteAt a) ∧ SameBut [.mem] s t ∧ t.MemCanonical :=
  ⟨_, writeBlock_ok s (.inr hb),
    fun _ hk => Memory.read_writeBytes_inside hm (by simp only [Config.memTop]; omega) hk,
    fun _ ha => Memory.read_writeBytes_outside s.mem ha, sameBut_mem s _,
    Memory.wf_writeBytes hm (by simp only [Config.memTop]; omega)⟩

end Sys2Proof.Machine
end

