-- ==== Sys2Proof/Laws/Cycle.lean ====
section
/-! SUPPORT. The cycle, case by case: what it does in a faulted state, on a failing fetch, on an unknown word and on an
instruction. Proofs about a step cite these instead of unfolding it. -/

namespace Sys2Proof.Machine

/-- Decoding a fetched word through its bytes is decoding the word (20_memory.md R56). -/
theorem decodeBytes_split (op : Word) : decodeBytes (highByte op) (lowByte op) = decode op := by
  rw [decodeBytes, joinBytes_highByte_lowByte]

theorem cycle_faulted {s : State} {f : Fault} (h : s.fault = some f) : cycle s = .next (s, ⟨.fault f, false⟩) := by
  simp only [cycle, h]
  rfl

theorem cycle_fetch_error {s : State} {f : Fault} (h : s.fault = none) (hf : s.fetch = .error f) :
    cycle s = .next ({ s with fault := some f }, ⟨.fault f, false⟩) := by
  simp only [cycle, h, hf]
  rfl

theorem cycle_unknown {s : State} {op w : Word} (h : s.fault = none) (hf : s.fetch = .ok op)
    (hd : decode op = .unknown w) :
    cycle s = .next (s.advance.tick, ⟨.unknown w, s.st == 1⟩) := by
  simp only [cycle, h, hf, decodeBytes_split, hd]
  rfl

theorem cycle_instr {s : State} {op : Word} {i : Instr} (h : s.fault = none) (hf : s.fetch = .ok op)
    (hd : decode op = .instr i) :
    cycle s =
      match exec i s.advance with
      | .next t => .next (endCycle t)
      | .fault f => .fault f
      | .refused r => .refused r := by
  simp only [cycle, h, hf, decodeBytes_split, hd]
  rfl

theorem endCycle_raised {t : State} {f : Fault} (h : t.fault = some f) : endCycle t = (t, ⟨.fault f, false⟩) := by
  simp only [endCycle, h, aborted]

theorem endCycle_completed {t : State} (h : t.fault = none) : endCycle t = (t.tick, ⟨.ok, t.soundTick⟩) := by
  simp only [endCycle, h, completed]

theorem step_of_cycle {s t : State} {r : CycleResult} (h : cycle s = .next (t, r)) : step s = .next t := by
  simp only [step, h, stateOf]

/-- Taking a fatal error in the instruction of an advanced state is taking it in the state before the advance: the
cycle is undone (60_exceptions.md R212). -/
theorem takeFault_advance (s : State) (f : Fault) :
    s.advance.takeFault s.advance.instrAddr f = { s with fault := some f } := by
  simp [State.takeFault, State.advance, State.instrAddr]

end Sys2Proof.Machine
end

