-- ==== Sys2Proof/Laws/PerInstr.lean ====
section
/-! SUPPORT. The family `Encodes`: the word of every instruction is selected by a row of 30_encoding.md R75, one lemma
for each constructor of `Instr`. -/

namespace Sys2Proof.Laws.Encodes

open Sys2Proof

/-- The encoding of the instruction is a defined word (30_encoding.md R75). -/
def Statement (i : Instr) : Prop := definedWord (encode i) = true

/-! ### The formats under the masks of R75 -/

/-- A row of the table that selects a word makes it a defined word. -/
theorem definedWord_of_row {op : Word} (r : OpcodeRow) (hr : r ∈ opcodeRows) (h : op &&& r.mask = r.pat) :
    definedWord op = true :=
  List.any_eq_true.mpr ⟨r, hr, by rw [OpcodeRow.selects, h]; exact beq_self_eq_true _⟩

theorem masked_field {w : Nat} (a : BitVec w) : a &&& (0 : BitVec w) = 0 := BitVec.and_zero

theorem kept_nibble (a : Nibble) : a &&& (0xF : Nibble) = a := BitVec.and_allOnes

theorem kept_byte (a : Byte) : a &&& (0xFF : Byte) = a := BitVec.and_allOnes

theorem encA_class (c : Nibble) (nnn : Addr) : encA c nnn &&& 0xF000 = encA c 0 := by
  rw [encA, show (0xF000 : Word) = (0xF : Nibble) ++ (0 : Addr) from rfl, BitVec.and_append, kept_nibble,
    masked_field]
  rfl

theorem encXB_class (c : Nibble) (x : Reg) (nn : Byte) : encXB c x nn &&& 0xF000 = encXB c 0 0 := by
  rw [encXB, show (0xF000 : Word) = (0xF : Nibble) ++ (0 : Nibble) ++ (0 : Byte) from rfl, BitVec.and_append,
    BitVec.and_append, kept_nibble, masked_field, masked_field]
  rfl

theorem encXB_class_byte (c : Nibble) (x : Reg) (nn : Byte) : encXB c x nn &&& 0xF0FF = encXB c 0 nn := by
  rw [encXB, show (0xF0FF : Word) = (0xF : Nibble) ++ (0 : Nibble) ++ (0xFF : Byte) from rfl, BitVec.and_append,
    BitVec.and_append, kept_nibble, masked_field, kept_byte]
  rfl

theorem encXYN_class (c : Nibble) (x y : Reg) (n : Nibble) : encXYN c x y n &&& 0xF000 = encXYN c 0 0 0 := by
  rw [encXYN, show (0xF000 : Word) = (0xF : Nibble) ++ (0 : Nibble) ++ (0 : Nibble) ++ (0 : Nibble) from rfl,
    BitVec.and_append, BitVec.and_append, BitVec.and_append, kept_nibble, masked_field, masked_field, masked_field]
  rfl

theorem encXYN_class_nibble (c : Nibble) (x y : Reg) (n : Nibble) : encXYN c x y n &&& 0xF00F = encXYN c 0 0 n := by
  rw [encXYN, show (0xF00F : Word) = (0xF : Nibble) ++ (0 : Nibble) ++ (0 : Nibble) ++ (0xF : Nibble) from rfl,
    BitVec.and_append, BitVec.and_append, BitVec.and_append, kept_nibble, masked_field, masked_field, kept_nibble]
  rfl

/-! ### One lemma for each instruction -/

theorem cls : Statement .cls := definedWord_of_row ⟨"00E0", 0x00E0, 0xFFFF⟩ (by decide) rfl
theorem ret : Statement .ret := definedWord_of_row ⟨"00EE", 0x00EE, 0xFFFF⟩ (by decide) rfl
theorem jp (nnn : Addr) : Statement (.jp nnn) :=
  definedWord_of_row ⟨"1nnn", 0x1000, 0xF000⟩ (by decide) (encA_class _ _)
theorem call (nnn : Addr) : Statement (.call nnn) :=
  definedWord_of_row ⟨"2nnn", 0x2000, 0xF000⟩ (by decide) (encA_class _ _)
theorem seImm (x : Reg) (nn : Byte) : Statement (.seImm x nn) :=
  definedWord_of_row ⟨"3xnn", 0x3000, 0xF000⟩ (by decide) (encXB_class _ _ _)
theorem sneImm (x : Reg) (nn : Byte) : Statement (.sneImm x nn) :=
  definedWord_of_row ⟨"4xnn", 0x4000, 0xF000⟩ (by decide) (encXB_class _ _ _)
theorem seReg (x y : Reg) : Statement (.seReg x y) :=
  definedWord_of_row ⟨"5xy0", 0x5000, 0xF00F⟩ (by decide) (encXYN_class_nibble _ _ _ _)
theorem ldImm (x : Reg) (nn : Byte) : Statement (.ldImm x nn) :=
  definedWord_of_row ⟨"6xnn", 0x6000, 0xF000⟩ (by decide) (encXB_class _ _ _)
theorem addImm (x : Reg) (nn : Byte) : Statement (.addImm x nn) :=
  definedWord_of_row ⟨"7xnn", 0x7000, 0xF000⟩ (by decide) (encXB_class _ _ _)
theorem ldReg (x y : Reg) : Statement (.ldReg x y) :=
  definedWord_of_row ⟨"8xy0", 0x8000, 0xF00F⟩ (by decide) (encXYN_class_nibble _ _ _ _)
theorem orReg (x y : Reg) : Statement (.orReg x y) :=
  definedWord_of_row ⟨"8xy1", 0x8001, 0xF00F⟩ (by decide) (encXYN_class_nibble _ _ _ _)
theorem andReg (x y : Reg) : Statement (.andReg x y) :=
  definedWord_of_row ⟨"8xy2", 0x8002, 0xF00F⟩ (by decide) (encXYN_class_nibble _ _ _ _)
theorem xorReg (x y : Reg) : Statement (.xorReg x y) :=
  definedWord_of_row ⟨"8xy3", 0x8003, 0xF00F⟩ (by decide) (encXYN_class_nibble _ _ _ _)
theorem addReg (x y : Reg) : Statement (.addReg x y) :=
  definedWord_of_row ⟨"8xy4", 0x8004, 0xF00F⟩ (by decide) (encXYN_class_nibble _ _ _ _)
theorem sub (x y : Reg) : Statement (.sub x y) :=
  definedWord_of_row ⟨"8xy5", 0x8005, 0xF00F⟩ (by decide) (encXYN_class_nibble _ _ _ _)
theorem shr (x y : Reg) : Statement (.shr x y) :=
  definedWord_of_row ⟨"8xy6", 0x8006, 0xF00F⟩ (by decide) (encXYN_class_nibble _ _ _ _)
theorem subn (x y : Reg) : Statement (.subn x y) :=
  definedWord_of_row ⟨"8xy7", 0x8007, 0xF00F⟩ (by decide) (encXYN_class_nibble _ _ _ _)
theorem shl (x y : Reg) : Statement (.shl x y) :=
  definedWord_of_row ⟨"8xyE", 0x800E, 0xF00F⟩ (by decide) (encXYN_class_nibble _ _ _ _)
theorem sneReg (x y : Reg) : Statement (.sneReg x y) :=
  definedWord_of_row ⟨"9xy0", 0x9000, 0xF00F⟩ (by decide) (encXYN_class_nibble _ _ _ _)
theorem ldI (nnn : Addr) : Statement (.ldI nnn) :=
  definedWord_of_row ⟨"Annn", 0xA000, 0xF000⟩ (by decide) (encA_class _ _)
theorem jpV0 (nnn : Addr) : Statement (.jpV0 nnn) :=
  definedWord_of_row ⟨"Bnnn", 0xB000, 0xF000⟩ (by decide) (encA_class _ _)
theorem rnd (x : Reg) (nn : Byte) : Statement (.rnd x nn) :=
  definedWord_of_row ⟨"Cxnn", 0xC000, 0xF000⟩ (by decide) (encXB_class _ _ _)
theorem drw (x y : Reg) (n : Nibble) : Statement (.drw x y n) :=
  definedWord_of_row ⟨"Dxyn", 0xD000, 0xF000⟩ (by decide) (encXYN_class _ _ _ _)
theorem skp (x : Reg) : Statement (.skp x) :=
  definedWord_of_row ⟨"Ex9E", 0xE09E, 0xF0FF⟩ (by decide) (encXB_class_byte _ _ _)
theorem sknp (x : Reg) : Statement (.sknp x) :=
  definedWord_of_row ⟨"ExA1", 0xE0A1, 0xF0FF⟩ (by decide) (encXB_class_byte _ _ _)
theorem ldVxDt (x : Reg) : Statement (.ldVxDt x) :=
  definedWord_of_row ⟨"Fx07", 0xF007, 0xF0FF⟩ (by decide) (encXB_class_byte _ _ _)
theorem ldVxK (x : Reg) : Statement (.ldVxK x) :=
  definedWord_of_row ⟨"Fx0A", 0xF00A, 0xF0FF⟩ (by decide) (encXB_class_byte _ _ _)
theorem ldDtVx (x : Reg) : Statement (.ldDtVx x) :=
  definedWord_of_row ⟨"Fx15", 0xF015, 0xF0FF⟩ (by decide) (encXB_class_byte _ _ _)
theorem ldStVx (x : Reg) : Statement (.ldStVx x) :=
  definedWord_of_row ⟨"Fx18", 0xF018, 0xF0FF⟩ (by decide) (encXB_class_byte _ _ _)
theorem addIVx (x : Reg) : Statement (.addIVx x) :=
  definedWord_of_row ⟨"Fx1E", 0xF01E, 0xF0FF⟩ (by decide) (encXB_class_byte _ _ _)
theorem ldFVx (x : Reg) : Statement (.ldFVx x) :=
  definedWord_of_row ⟨"Fx29", 0xF029, 0xF0FF⟩ (by decide) (encXB_class_byte _ _ _)
theorem ldBVx (x : Reg) : Statement (.ldBVx x) :=
  definedWord_of_row ⟨"Fx33", 0xF033, 0xF0FF⟩ (by decide) (encXB_class_byte _ _ _)
theorem storeVx (x : Reg) : Statement (.storeVx x) :=
  definedWord_of_row ⟨"Fx55", 0xF055, 0xF0FF⟩ (by decide) (encXB_class_byte _ _ _)
theorem loadVx (x : Reg) : Statement (.loadVx x) :=
  definedWord_of_row ⟨"Fx65", 0xF065, 0xF0FF⟩ (by decide) (encXB_class_byte _ _ _)

end Sys2Proof.Laws.Encodes
end

