-- ==== Sys2Proof/Tests/Slice0.lean ====
section
/-! SUPPORT. The model's own tests. Expected results come from spec/95_test_vectors.md (W and T numbers), from the
examples of the rules, or from the rules' encodings written out by hand; none from a run of this model. -/

namespace Sys2Proof.Tests

open Sys2Proof Sys2Proof.Machine

/-! ### Helpers -/

/-- A reset machine about to fetch the word `w` at 0x200. -/
def fetching (w : Nat) : State := State.reset.withFetchWord 16 w

/-- The state with these registers set. -/
def regs (rs : List (Reg × Byte)) (s : State) : State := rs.foldl (fun s r => s.setReg r.1 r.2) s

/-- The state with these bytes at an address. -/
def bytes (a : Nat) (bs : List Byte) (s : State) : State := { s with mem := s.mem.writeBytes a bs }

/-- The state with these cells on. -/
def cells (cs : List (Fin 64 × Fin 32)) (s : State) : State :=
  { s with fb := cs.foldl (fun fb c => flipCell fb c.1 c.2) s.fb }

/-- A view of the state after one step. -/
def after {α : Type} (s : State) (f : State → α) : Option α :=
  match step s with
  | .next t => some (f t)
  | .fault _ => none
  | .refused _ => none

/-- The outputs of one cycle. -/
def outputs (s : State) : Option CycleResult :=
  match cycle s with
  | .next r => some r.2
  | .fault _ => none
  | .refused _ => none

/-! ### Well-formed words: one ill-formed word for each class of 30_encoding.md R77 -/

theorem test_ill_formed_class0 : definedWord 0x0123 = false := by decide
theorem test_ill_formed_class5 : definedWord 0x5121 = false := by decide
theorem test_ill_formed_class8 : definedWord 0x8008 = false := by decide
theorem test_ill_formed_class9 : definedWord 0x912F = false := by decide
theorem test_ill_formed_classE : definedWord 0xE09F = false := by decide
theorem test_ill_formed_classF : definedWord 0xF0FF = false := by decide
theorem test_well_formed_drw : definedWord 0xD122 = true := by decide

/-! ### Decoding: one word of every row, written out from the encoding line of its rule -/

theorem test_decode_cls : decode 0b0000000011100000 = .instr .cls := by decide
theorem test_decode_ret : decode 0b0000000011101110 = .instr .ret := by decide
theorem test_decode_jp : decode 0b0001101010111100 = .instr (.jp 0xABC) := by decide
theorem test_decode_call : decode 0b0010001000010000 = .instr (.call 0x210) := by decide
theorem test_decode_seImm : decode 0b0011000000000101 = .instr (.seImm 0 5) := by decide
theorem test_decode_sneImm : decode 0b0100111100000001 = .instr (.sneImm 15 1) := by decide
theorem test_decode_seReg : decode 0b0101001101000000 = .instr (.seReg 3 4) := by decide
theorem test_decode_ldImm : decode 0b0110101001000010 = .instr (.ldImm 10 0x42) := by decide
theorem test_decode_addImm : decode 0b0111000000000010 = .instr (.addImm 0 2) := by decide
theorem test_decode_ldReg : decode 0b1000000100100000 = .instr (.ldReg 1 2) := by decide
theorem test_decode_or : decode 0b1000000100100001 = .instr (.orReg 1 2) := by decide
theorem test_decode_and : decode 0b1000000100100010 = .instr (.andReg 1 2) := by decide
theorem test_decode_xor : decode 0b1000000100100011 = .instr (.xorReg 1 2) := by decide
theorem test_decode_addReg : decode 0b1000111100010100 = .instr (.addReg 15 1) := by decide
theorem test_decode_sub : decode 0b1000000111110101 = .instr (.sub 1 15) := by decide
theorem test_decode_shr : decode 0b1000000100100110 = .instr (.shr 1 2) := by decide
theorem test_decode_subn : decode 0b1000000100100111 = .instr (.subn 1 2) := by decide
theorem test_decode_shl : decode 0b1000000100001110 = .instr (.shl 1 0) := by decide
theorem test_decode_sneReg : decode 0b1001001101000000 = .instr (.sneReg 3 4) := by decide
theorem test_decode_ldI : decode 0b1010000100100011 = .instr (.ldI 0x123) := by decide
theorem test_decode_jpV0 : decode 0b1011001100000000 = .instr (.jpV0 0x300) := by decide
theorem test_decode_rnd : decode 0b1100000100001111 = .instr (.rnd 1 0x0F) := by decide
theorem test_decode_drw : decode 0b1101000100100101 = .instr (.drw 1 2 5) := by decide
theorem test_decode_skp : decode 0b1110000110011110 = .instr (.skp 1) := by decide
theorem test_decode_sknp : decode 0b1110000110100001 = .instr (.sknp 1) := by decide
theorem test_decode_ldVxDt : decode 0b1111000100000111 = .instr (.ldVxDt 1) := by decide
theorem test_decode_ldVxK : decode 0b1111001000001010 = .instr (.ldVxK 2) := by decide
theorem test_decode_ldDtVx : decode 0b1111000000010101 = .instr (.ldDtVx 0) := by decide
theorem test_decode_ldStVx : decode 0b1111000000011000 = .instr (.ldStVx 0) := by decide
theorem test_decode_addIVx : decode 0b1111001100011110 = .instr (.addIVx 3) := by decide
theorem test_decode_ldFVx : decode 0b1111000000101001 = .instr (.ldFVx 0) := by decide
theorem test_decode_ldBVx : decode 0b1111010100110011 = .instr (.ldBVx 5) := by decide
theorem test_decode_storeVx : decode 0b1111001001010101 = .instr (.storeVx 2) := by decide
theorem test_decode_loadVx : decode 0b1111111101100101 = .instr (.loadVx 15) := by decide

/-- T5: words that no row selects. -/
theorem test_decode_unknown :
    [0x8008, 0x5121, 0x912F, 0xE09F, 0xF0FF, 0x0123].all (fun op => decode op == .unknown op) = true := by decide

/-! ### The cycle: fetch, unknown opcodes, faults -/

/-- W11: the fetch is big-endian. -/
theorem test_fetch_big_endian :
    ((bytes 0x200 [0x12, 0x34] State.reset).fetch.toOption) = some 0x1234 := by decide

/-- T2: a fetch at 0xFFE succeeds and the next PC is 0x1000. -/
theorem test_fetch_top :
    after (bytes 0xFFE [0x60, 0x07] (State.reset.jump 0xFFE)) (fun t => (t.reg 0, t.pc)) = some (7, 0x1000) := by decide

/-- T3: a fetch at 0xFFF faults on 0x1000, the cycle is undone and nothing ticks. -/
theorem test_fetch_fault :
    after ((State.reset.jump 0xFFF).setDt 5) (fun t => (t.fault, t.pc, t.dt)) =
      some (some (.memoryOutOfBounds 0x1000 .fetch), 0xFFF, 5) := by decide

/-- T4: an unknown word is a no-op that ticks and is reported. -/
theorem test_unknown :
    after ((fetching 0x0000).setDt 3) (fun t => (t.pc, t.dt)) = some (0x202, 2) ∧
      outputs (fetching 0x0000) = some ⟨.unknown 0x0000, false⟩ := by decide

/-- T6: a faulted machine answers its fault again and does not change. -/
theorem test_faulted :
    outputs ((fetching 0x6007).takeFault 0x200 (.stackUnderflow 0x200)) =
        some ⟨.fault (.stackUnderflow 0x200), false⟩ ∧
      after ((fetching 0x6007).takeFault 0x200 (.stackUnderflow 0x200)) (fun t => (t.pc, t.reg 0)) =
        some (0x200, 0) := by decide

/-! ### Timers and keypad -/

/-- T8: `F018` with V0 = 1 ends its own cycle with ST = 0 and the sound tick. -/
theorem test_ldStVx_tick :
    after (regs [(0, 1)] (fetching 0xF018)) (·.st) = some 0 ∧
      outputs (regs [(0, 1)] (fetching 0xF018)) = some ⟨.ok, true⟩ := by decide

/-- T15: `F018` with V0 = 0 has no tick. -/
theorem test_ldStVx_zero : outputs (regs [(0, 0)] (fetching 0xF018)) = some ⟨.ok, false⟩ := by decide

/-- T11, T12: `F015`. -/
theorem test_ldDtVx :
    after (regs [(0, 5)] (fetching 0xF015)) (·.dt) = some 4 ∧
      after (regs [(0, 0)] (fetching 0xF015)) (·.dt) = some 0 := by decide

/-- T13: `F107` reads DT before the tick. -/
theorem test_ldVxDt : after ((fetching 0xF107).setDt 4) (fun t => (t.reg 1, t.dt)) = some (4, 3) := by decide

/-- T16: `FF07` writes VF. -/
theorem test_ldVxDt_vf : after ((fetching 0xFF07).setDt 9) (fun t => (t.reg 15, t.dt)) = some (9, 8) := by decide

/-- T17, T18: `E19E`. -/
theorem test_skp :
    after (regs [(1, 7)] ((fetching 0xE19E).keySet 7 true)) (·.pc) = some 0x204 ∧
      after (regs [(1, 7)] (fetching 0xE19E)) (·.pc) = some 0x202 := by decide

/-- T21: `E19E` with V1 = 0x10. -/
theorem test_skp_range :
    after (regs [(1, 0x10)] (fetching 0xE19E)) (fun t => (t.fault, t.pc)) =
      some (some (.keyOutOfRange 0x10), 0x200) := by decide

/-- T19, T20: `E1A1`. -/
theorem test_sknp :
    after (regs [(1, 7)] (fetching 0xE1A1)) (·.pc) = some 0x204 ∧
      after (regs [(1, 7)] ((fetching 0xE1A1).keySet 7 true)) (·.pc) = some 0x202 := by decide

/-- T22: `F20A` with no key down waits, and the timers tick. -/
theorem test_ldVxK_waits :
    after ((fetching 0xF20A).setDt 2) (fun t => (t.pc, t.reg 2, t.dt)) = some (0x200, 0, 1) := by decide

/-- T23: the lowest key wins. -/
theorem test_ldVxK_lowest :
    after (((fetching 0xF20A).keySet 9 true).keySet 3 true) (fun t => (t.reg 2, t.pc)) = some (3, 0x202) := by decide

/-! ### Control transfer -/

/-- T26. -/
theorem test_jp : after (fetching 0x1ABC) (·.pc) = some 0xABC := by decide

/-- W6, T28: the address after the call is pushed. -/
theorem test_call : after (fetching 0x2300) (fun t => (t.pc, t.sp, t.stack[0])) = some (0x300, 1, 0x202) := by decide

/-- T29: a call at SP = 16 faults and is undone. -/
theorem test_call_overflow :
    after { fetching 0x2210 with sp := 16 } (fun t => (t.fault, t.pc, t.sp)) =
      some (some (.stackOverflow 0x200), 0x200, 16) := by decide

/-- T31: the popped slot keeps its value. -/
theorem test_ret :
    after { fetching 0x00EE with sp := 1, stack := (Vector.replicate 16 0).set 0 0x206 }
      (fun t => (t.pc, t.sp, t.stack[0])) = some (0x206, 0, 0x206) := by decide

/-- T7: a return with an empty stack faults and is undone. -/
theorem test_ret_underflow :
    after ((fetching 0x00EE).setDt 4) (fun t => (t.fault, t.pc, t.dt)) =
      some (some (.stackUnderflow 0x200), 0x200, 4) := by decide

/-- T32. -/
theorem test_seImm :
    after (regs [(0, 5)] (fetching 0x3005)) (·.pc) = some 0x204 ∧
      after (regs [(0, 4)] (fetching 0x3005)) (·.pc) = some 0x202 := by decide

/-- T33. -/
theorem test_sneImm :
    after (regs [(0, 5)] (fetching 0x4005)) (·.pc) = some 0x202 ∧
      after (regs [(0, 4)] (fetching 0x4005)) (·.pc) = some 0x204 := by decide

/-- T34, T35. -/
theorem test_seReg :
    after (regs [(3, 1), (4, 2)] (fetching 0x5340)) (·.pc) = some 0x202 ∧
      after (regs [(3, 1)] (fetching 0x5330)) (·.pc) = some 0x204 := by decide

/-- T37. -/
theorem test_sneReg :
    after (regs [(3, 1), (4, 2)] (fetching 0x9340)) (·.pc) = some 0x204 ∧
      after (regs [(3, 2), (4, 2)] (fetching 0x9340)) (·.pc) = some 0x202 := by decide

/-- T39: the sum is not reduced modulo 4096. -/
theorem test_jpV0 : after (regs [(0, 0xFF)] (fetching 0xBFFF)) (·.pc) = some 0x10FE := by decide

/-! ### Loads and ALU -/

/-- T42. -/
theorem test_ldImm : after (fetching 0x6A42) (·.reg 10) = some 0x42 := by decide

/-- W4: no carry into VF. -/
theorem test_addImm : after (regs [(0, 0xFF)] (fetching 0x7002)) (fun t => (t.reg 0, t.reg 15)) = some (1, 0) := by decide

/-- T43: x = F is a plain addition. -/
theorem test_addImm_vf : after (regs [(15, 0xFE)] (fetching 0x7F03)) (·.reg 15) = some 1 := by decide

/-- T45. -/
theorem test_ldReg : after (regs [(2, 7)] (fetching 0x8120)) (·.reg 1) = some 7 := by decide

/-- T46: VF is not reset. -/
theorem test_or :
    after (regs [(1, 0x0F), (2, 0xF0), (15, 0x33)] (fetching 0x8121)) (fun t => (t.reg 1, t.reg 15)) =
      some (0xFF, 0x33) := by decide

/-- T47: VF is not reset. -/
theorem test_and :
    after (regs [(1, 0x3C), (2, 0x0F), (15, 0x33)] (fetching 0x8122)) (fun t => (t.reg 1, t.reg 15)) =
      some (0x0C, 0x33) := by decide

/-- T48, T49. -/
theorem test_xor :
    after (regs [(1, 0xFF), (2, 0x0F)] (fetching 0x8123)) (·.reg 1) = some 0xF0 ∧
      after (regs [(1, 0x5A)] (fetching 0x8113)) (·.reg 1) = some 0 := by decide

/-- T50, T51: the carry boundary. -/
theorem test_addReg :
    after (regs [(1, 0x80), (2, 0x80)] (fetching 0x8124)) (fun t => (t.reg 1, t.reg 15)) = some (0, 1) ∧
      after (regs [(1, 0x7F), (2, 0x80)] (fetching 0x8124)) (fun t => (t.reg 1, t.reg 15)) = some (0xFF, 0) := by decide

/-- T52, T53: VF as destination and as operand. -/
theorem test_addReg_vf :
    after (regs [(15, 0xFF), (1, 1)] (fetching 0x8F14)) (·.reg 15) = some 1 ∧
      after (regs [(1, 0x10), (15, 0xF0)] (fetching 0x81F4)) (fun t => (t.reg 1, t.reg 15)) = some (0, 1) := by decide

/-- T56, T57: borrow, and equal operands. -/
theorem test_sub :
    after (regs [(1, 3), (2, 5)] (fetching 0x8125)) (fun t => (t.reg 1, t.reg 15)) = some (0xFE, 0) ∧
      after (regs [(1, 5), (2, 5)] (fetching 0x8125)) (fun t => (t.reg 1, t.reg 15)) = some (0, 1) := by decide

/-- T58: the parameter at the original code's value. -/
theorem test_noBorrow_parameter : noBorrowFlag 2 5 3 = 2 := by decide

/-- T62, T64: Vy ignored; VF ends as old bit 0. -/
theorem test_shr :
    after (regs [(1, 4), (2, 0xFF)] (fetching 0x8126)) (fun t => (t.reg 1, t.reg 15)) = some (2, 0) ∧
      after (regs [(15, 2)] (fetching 0x8F06)) (·.reg 15) = some 0 := by decide

/-- T65, T66. -/
theorem test_subn :
    after (regs [(1, 3), (2, 5)] (fetching 0x8127)) (fun t => (t.reg 1, t.reg 15)) = some (2, 1) ∧
      after (regs [(1, 5), (2, 3)] (fetching 0x8127)) (fun t => (t.reg 1, t.reg 15)) = some (0xFE, 0) := by decide

/-- T68, T71. -/
theorem test_shl :
    after (regs [(1, 0x81)] (fetching 0x810E)) (fun t => (t.reg 1, t.reg 15)) = some (2, 1) ∧
      after (regs [(15, 0x40)] (fetching 0x8F0E)) (·.reg 15) = some 0 := by decide

/-- T72: the random byte, whatever it is, masked by nn. -/
theorem test_rnd : after (fetching 0xC10F) (fun t => (t.reg 1, t.draws)) = some (Config.randByte 0 &&& 0x0F, 1) := rfl

/-! ### Index register and memory -/

/-- T75. -/
theorem test_ldI : after (fetching 0xA123) (·.i) = some 0x123 := by decide

/-- T76, T77: no range check, wrap at 16 bits. -/
theorem test_addIVx :
    after (regs [(3, 5)] ((fetching 0xF31E).setI 0x0FFE)) (fun t => (t.i, t.reg 15)) = some (0x1003, 0) ∧
      after (regs [(0, 2)] ((fetching 0xF01E).setI 0xFFFF)) (·.i) = some 1 := by decide

/-- T78: not masked to a nibble. -/
theorem test_ldFVx :
    after (regs [(0, 0x0F)] (fetching 0xF029)) (·.i) = some 0x04B ∧
      after (regs [(0, 0xFF)] (fetching 0xF029)) (·.i) = some 0x4FB := by decide

/-- W7. -/
theorem test_ldBVx :
    after (regs [(5, 0xEA)] ((fetching 0xF533).setI 0x400)) (fun t => (t.byteAt 0x400, t.byteAt 0x401, t.byteAt 0x402)) =
      some (2, 3, 4) := by decide

/-- T82: nothing is written when the third address is invalid. -/
theorem test_ldBVx_bounds :
    after (regs [(0, 1)] ((fetching 0xF033).setI 0xFFE)) (fun t => (t.fault, t.byteAt 0xFFF, t.pc)) =
      some (some (.memoryOutOfBounds 0x1000 .write), 0, 0x200) := by decide

/-- T83: I is unchanged. -/
theorem test_storeVx :
    after (regs [(0, 1), (1, 2), (2, 3), (3, 9)] ((fetching 0xF255).setI 0x400))
      (fun t => (t.byteAt 0x400, t.byteAt 0x402, t.byteAt 0x403, t.i)) = some (1, 3, 0, 0x400) := by decide

/-- T85. -/
theorem test_storeVx_bounds :
    after (regs [(0, 1)] ((fetching 0xFF55).setI 0xFF1)) (fun t => (t.fault, t.byteAt 0xFF1)) =
      some (some (.memoryOutOfBounds 0x1000 .write), 0) := by decide

/-- T86: registers above x are unchanged. -/
theorem test_loadVx :
    after (regs [(3, 9)] (bytes 0x300 [2, 3, 4] ((fetching 0xF265).setI 0x300)))
      (fun t => (t.reg 0, t.reg 2, t.reg 3, t.i)) = some (2, 4, 9, 0x300) := by decide

/-- T88. -/
theorem test_loadVx_bounds :
    after ((fetching 0xF065).setI 0x1003) (·.fault) = some (some (.memoryOutOfBounds 0x1003 .read)) := by decide

/-! ### Display -/

/-- T90: VF is unchanged. -/
theorem test_cls :
    after (regs [(15, 1)] (cells [(3, 4)] (fetching 0x00E0))) (fun t => (t.cell 3 4, t.reg 15)) =
      some (false, 1) := by decide +kernel

/-- T91: both axes wrap. -/
theorem test_drw_wraps :
    after (regs [(1, 63), (2, 31)] (bytes 0x300 [0xC0, 0x80] ((fetching 0xD122).setI 0x300)))
      (fun t => (t.cell 63 31, t.cell 0 31, t.cell 63 0, t.cell 0 0, t.reg 15)) =
      some (true, true, true, false, 0) := by decide +kernel

/-- T96, T97: a collision needs a set bit over an on cell. -/
theorem test_drw_collision :
    after (cells [(0, 0)] (bytes 0x300 [0x80] ((fetching 0xD011).setI 0x300))) (fun t => (t.cell 0 0, t.reg 15)) =
        some (false, 1) ∧
      after (cells [(1, 0)] (bytes 0x300 [0x80] ((fetching 0xD011).setI 0x300)))
        (fun t => (t.cell 0 0, t.cell 1 0, t.reg 15)) = some (true, true, 0) := by decide +kernel

/-- T94: with n = 0 nothing is read, so nothing faults; VF is written. -/
theorem test_drw_empty :
    after (regs [(15, 1)] ((fetching 0xD010).setI 0x1000)) (fun t => (t.fault, t.reg 15)) =
      some (none, 0) := by decide +kernel

/-- T95. -/
theorem test_drw_bounds :
    after (regs [(15, 1)] ((fetching 0xD013).setI 0xFFE)) (fun t => (t.fault, t.reg 15, t.pc)) =
      some (some (.memoryOutOfBounds 0x1000 .read), 1, 0x200) := by decide +kernel

/-! ### The host's ports -/

/-- W9: one byte too many is rejected. -/
theorem test_load_too_large :
    (match State.reset.load (List.replicate 3585 0) with
      | .error e => some e
      | .ok _ => none) = some (.loadTooLarge 3585) := by decide +kernel

/-- 60_exceptions.md R226: a key number above 0xF changes nothing. -/
theorem test_keySet_range : State.reset.keySet 16 true = State.reset := rfl

/-- 70_reset_and_hazards.md R240: the font is there after reset, and the parameter's default is what reset holds. -/
theorem test_reset_font : State.reset.byteAt 0x04B = 0xF0 ∧ State.resetWith Config.font = State.reset := by
  constructor
  · decide
  · rfl

/-! ### Witnesses: states and operands that meet the hypotheses of each statement, clause by clause -/

/-- A reset machine with PC, I and SP at boundary values. -/
def sample (pc i : Word) (sp : Fin 17) : State := { State.reset with pc := pc, i := i, sp := sp }

theorem witness_EncodeOfDecode : decode 0xD122 = .instr (.drw 1 2 2) := by decide

theorem witness_DecoderAgreesWithOpcodeTable : definedWord 0xF065 = true ∧ definedWord 0xF066 = false := by decide

theorem witness_StepRunsTheDecodedInstruction :
    let s := bytes 0xFFE [0x60, 0x07] (State.reset.jump 0xFFE)
    s.fault = none ∧ s.pc.toNat ≤ 0xFFE ∧
      decodeBytes (s.byteAt s.pc.toNat) (s.byteAt (s.pc.toNat + 1)) = .instr (.ldImm 0 7) := by decide

theorem witness_FetchReadsBigEndianOrFaults :
    (State.reset.jump 0xFFE).pc.toNat ≤ 0xFFE ∧ (State.reset.jump 0xFFF).pc.toNat = 0xFFF ∧
      0x1000 ≤ (State.reset.jump 0x1000).pc.toNat := by decide

theorem witness_FetchErrorEndsTheCycle :
    (State.reset.jump 0xFFF).fault = none ∧ 0xFFE < (State.reset.jump 0xFFF).pc.toNat := by decide

theorem witness_UnknownWordIsAReportedNoOp :
    State.reset.fault = none ∧ State.reset.fetch = .ok 0 ∧ definedWord 0 = false := ⟨rfl, rfl, by decide⟩

theorem witness_TickFollowsTheExecuteStep_unknown :
    State.reset.fault = none ∧ State.reset.fetch = .ok 0 ∧ State.reset.advance.fault = none ∧
      decode 0 = .unknown 0 ∧ State.reset.advance = { State.reset with pc := State.reset.pc + 2 } :=
  ⟨rfl, rfl, rfl, by decide, rfl⟩

theorem witness_TickFollowsTheExecuteStep_instr :
    ∃ u, (fetching 0x6007).fault = none ∧ (fetching 0x6007).fetch = .ok 0x6007 ∧ u.fault = none ∧
      decode 0x6007 = .instr (.ldImm 0 7) ∧
      exec (.ldImm 0 7) { fetching 0x6007 with pc := (fetching 0x6007).pc + 2 } = .next u :=
  ⟨_, rfl, rfl, rfl, by decide, rfl⟩

theorem witness_CycleReportsItsStatus :
    ∃ t r, State.reset.fault = none ∧ State.reset.fetch = .ok 0 ∧ cycle State.reset = .next (t, r) :=
  ⟨_, _, rfl, rfl, rfl⟩

/-- A sound tick happens: ST is 1 at the start of the cycle (W10). -/
theorem witness_CycleReportsItsStatus_tick : outputs ((fetching 0x6000).setSt 1) = some ⟨.ok, true⟩ := by decide

theorem witness_RaisingCycleIsUndone :
    ∃ t r, (fetching 0x00EE).fault = none ∧ cycle (fetching 0x00EE) = .next (t, r) ∧
      t.fault = some (.stackUnderflow 0x200) := ⟨_, _, rfl, rfl, rfl⟩

theorem witness_FaultedMachineDoesNotChange :
    (State.reset.takeFault 0x200 (.stackUnderflow 0x200)).fault = some (.stackUnderflow 0x200) := rfl

theorem witness_FatalErrorIsNeverCleared : RunsSafely ([.cycle] ++ [.keySet 3 true]) State.reset := ⟨_, rfl, rfl⟩

theorem witness_OnlyListedRegistersChange :
    ∃ t, exec (.addReg 0 1) State.reset = .next t ∧ (2 : Reg) ∉ regsWritten (.addReg 0 1) := ⟨_, rfl, by decide⟩

theorem witness_OnlyStoresChangeMemory :
    ∃ t, exec (.storeVx 2) (sample 0x202 0x400 0) = .next t ∧
      0x403 ∉ storeAddrs (sample 0x202 0x400 0) (.storeVx 2) ∧ 0x3FF ∉ storeAddrs (sample 0x202 0x400 0) (.storeVx 2) :=
  ⟨_, rfl, by decide, by decide⟩

theorem witness_OnlyListedPartsChange :
    ∃ t, State.reset.fault = none ∧ exec (.call 0x300) State.reset = .next t ∧ t.fault = none ∧
      Part.fb ∉ partsWritten (.call 0x300) := ⟨_, rfl, rfl, rfl, by decide⟩

theorem witness_StepNeverChangesTheKeypad : ∃ t, step (fetching 0xF20A) = .next t := ⟨_, rfl⟩

theorem witness_DrawXorsTheSprite_empty : (0 : Nibble).toNat = 0 := rfl

/-- The last sprite row may lie at 0xFFF. -/
theorem witness_DrawXorsTheSprite_top : (sample 0x202 0xFF1 0).i.toNat + (15 : Nibble).toNat ≤ 0x1000 := by decide

/-- Glyph 0's first row covers cell (0, 0) and not cell (4, 0). -/
theorem witness_DrawXorsTheSprite_covers :
    SpriteCovers State.reset 0 0 1 0 0 ∧ ¬ SpriteCovers State.reset 0 0 1 4 0 := by
  refine ⟨⟨0, by decide, 0, by decide, by decide, by decide, by decide⟩, ?_⟩
  rintro ⟨j, hj, i, hi, hb, hx, -⟩
  have h0 : (State.reset.reg 0).toNat = 0 := rfl
  have hv : (4 : Fin 64).val = 4 := rfl
  have hi4 : i = 4 := by omega
  obtain rfl : j = 0 := by omega
  subst hi4
  revert hb
  decide

/-- With that cell on there is a collision. -/
theorem witness_DrawXorsTheSprite_collision :
    SpriteCovers (cells [(0, 0)] State.reset) 0 0 1 0 0 ∧ (cells [(0, 0)] State.reset).cell 0 0 = true :=
  ⟨⟨0, by decide, 0, by decide, by decide, by decide, by decide⟩, by decide⟩

theorem witness_DrawXorsTheSprite_no_collision :
    ¬ ∃ cx cy, SpriteCovers State.reset 0 0 0 cx cy ∧ State.reset.cell cx cy = true := by
  rintro ⟨_, _, ⟨_, hj, _⟩, _⟩
  exact absurd hj (Nat.not_lt_zero _)

theorem witness_DrawTwiceRestoresTheScreen :
    (0 : Reg) ≠ 15 ∧ (14 : Reg) ≠ 15 ∧ State.reset.i.toNat + (5 : Nibble).toNat ≤ 0x1000 := by decide

theorem witness_ReturnPopsTheStack :
    (sample 0x202 0 1).sp.val = (0 : Fin 16).val + 1 ∧ (sample 0x202 0 16).sp.val = (15 : Fin 16).val + 1 ∧
      (sample 0x202 0 0).sp.val = 0 := by decide

theorem witness_CallPushesTheReturnAddress :
    (sample 0x202 0 0).sp.val = (0 : Fin 16).val ∧ (sample 0x202 0 15).sp.val = (15 : Fin 16).val ∧
      (sample 0x202 0 16).sp.val = 16 := by decide

theorem witness_ReturnAfterCallRestoresPc : (sample 0x202 0 15).sp.val < 16 := by decide

theorem witness_RegisterSkips :
    (15 : Nibble) ≠ 0 ∧ (0x534F : Word) = 0x5000 ||| xBits 3 ||| yBits 4 ||| (15 : Nibble).setWidth 16 := by decide

theorem witness_BcdStoresThreeDigits :
    (sample 0x202 0xFFD 0).MemCanonical ∧ (sample 0x202 0xFFD 0).i.toNat + 2 ≤ 0xFFF ∧
      0xFFF < (sample 0x202 0xFFE 0).i.toNat + 2 := ⟨rfl, by decide, by decide⟩

theorem witness_StoreWritesRegistersToMemory :
    (sample 0x202 0xFF0 0).MemCanonical ∧ (sample 0x202 0xFF0 0).i.toNat + (15 : Reg).val ≤ 0xFFF := ⟨rfl, by decide⟩

theorem witness_LoadReadsRegistersFromMemory :
    (sample 0x202 0xFFF 0).i.toNat + (0 : Reg).val ≤ 0xFFF ∧ (sample 0x202 0xFF0 0).i.toNat + (15 : Reg).val ≤ 0xFFF := by
  decide

theorem witness_BlockBeyondMemoryRaises :
    0x1000 < (sample 0x202 0xFF2 0).i.toNat + (15 : Nibble).toNat ∧ 0x1000 < (sample 0x202 0xFFE 0).i.toNat + 3 ∧
      0x1000 < (sample 0x202 0xFF1 0).i.toNat + ((15 : Reg).val + 1) ∧
      0x1000 < (sample 0x202 0xFFFF 0).i.toNat + ((0 : Reg).val + 1) := by decide

theorem witness_LoadAfterStoreRestoresRegisters :
    (sample 0x202 0xFFF 0).MemCanonical ∧ (sample 0x202 0xFFF 0).i.toNat + (0 : Reg).val ≤ 0xFFF := ⟨rfl, by decide⟩

theorem witness_StoreIsSeenByTheNextFetch :
    (sample 0x202 0xFFE 0).MemCanonical ∧ (sample 0x202 0xFFE 0).i.toNat + (1 : Reg).val ≤ 0xFFF ∧
      (1 : Reg).val = (0 : Reg).val + 1 ∧ (1 : Reg) ≤ 1 := ⟨rfl, by decide, rfl, by decide⟩

theorem witness_KeySkips :
    ((regs [(1, 0xF)] State.reset).reg 1).toNat = (15 : Key).val ∧
      0xF < ((regs [(1, 0x10)] State.reset).reg 1).toNat := by decide

theorem witness_KeyWaitWaitsOrTakesAKey :
    (∀ k, State.reset.keyDown k = false) ∧ (State.reset.keySet 15 true).keyDown 15 = true ∧
      ∀ j, j < 15 → (State.reset.keySet 15 true).keyDown j = false := by decide

theorem witness_AnyPressedIsTheLowestKey : (State.reset.keySet 15 true).anyPressed = some 15 := by decide

theorem witness_SetDelayTimer_SetSoundTimer : State.reset.fault = none := rfl

theorem witness_WaitingForAKeyOnlyTicks :
    let s := fetching 0xF20A
    s.fault = none ∧ s.pc.toNat ≤ 0xFFE ∧
      decodeBytes (s.byteAt s.pc.toNat) (s.byteAt (s.pc.toNat + 1)) = .instr (.ldVxK 2) ∧
      ∀ k, s.keyDown k = false := by decide

theorem witness_StepKeepsMemoryCanonical :
    ∃ t, (fetching 0xF255).MemCanonical ∧ step (fetching 0xF255) = .next t := ⟨_, rfl, rfl⟩

theorem witness_StepKeepsPcInRange : ∃ t, State.reset.PcInRange ∧ step State.reset = .next t :=
  ⟨_, ⟨by decide, by decide⟩, rfl⟩

theorem witness_HostRunKeepsTheInvariant :
    ∃ t, State.reset.Inv ∧ hostRun [.keySet 3 true, .cycle, .fbRead] State.reset = .next t :=
  ⟨_, ⟨rfl, by decide, by decide⟩, rfl⟩

theorem witness_LoaderPlacesOrRejects :
    State.reset.MemCanonical ∧ (List.replicate 3584 (0 : Byte)).length ≤ 3584 ∧
      3584 < (List.replicate 3585 (0 : Byte)).length := by
  exact ⟨rfl, Nat.le_of_eq List.length_replicate, Nat.lt_of_lt_of_eq (by decide) List.length_replicate.symm⟩

theorem witness_KeySetWritesOneKey : (0xF : Nat) < 16 ∧ State.reset.keySet 15 true ≠ State.reset := by
  refine ⟨by decide, fun h => absurd (congrArg (fun s => s.keyDown 15) h) (by decide)⟩

end Sys2Proof.Tests
end

section
/-! PROOFS. The family of 30_encoding.md: the fetch (R81) and the tick at the end of a cycle (R85). -/

namespace Sys2Proof.Machine

/-! ### The fetch -/

/-- Settles O7: memory ends at 0xFFF, so the first invalid address of the two bytes at PC is the larger of PC and
0x1000 (`fetch_error`). -/
theorem fetchReadsBigEndianOrFaults : Obligations.FetchReadsBigEndianOrFaults := by
  intro s
  refine ⟨fun h => ⟨_, fetch_ok s h, joinBytes_toNat _ _⟩, fun h => ?_, fun h => ?_⟩
  · rw [fetch_error s (by omega), max_eq_right (by omega)]
  · rw [fetch_error s (by omega), max_eq_left h]

/-! ### The tick -/

/-- An instruction that does not raise completes its cycle with `Ok` (R80 step 5, R210). -/
theorem cycle_instr_completed {s u : State} {op : Word} {i : Instr} (h : s.fault = none) (hf : s.fetch = .ok op)
    (hd : decode op = .instr i) (he : exec i s.advance = .next u) (hu : u.fault = none) :
    cycle s = .next (completed .ok u) := by
  simp only [cycle_instr h hf hd, he, endCycle_completed hu, completed]

/-- What the end of a completed cycle does to the state `u` its execute step left, whatever the status (R85, R222,
R223). -/
theorem completed_spec (status : Status) (u : State) :
    ∃ t r, completed status u = (t, r) ∧ t.dt.toNat = u.dt.toNat - 1 ∧ t.st.toNat = u.st.toNat - 1 ∧
      r.soundTick = (u.st == 1) ∧ SameBut [.dt, .st] u t :=
  ⟨_, _, rfl, tickDown_toNat _, tickDown_toNat _, rfl, sameBut_tick u⟩

/-- Settles O10: an unknown word and an instruction that does not raise both end in `completed`, applied to the state
the execute step left. -/
theorem tickFollowsTheExecuteStep : Obligations.TickFollowsTheExecuteStep := by
  intro s u op hs hf hu hexec
  have hcycle : ∃ status, cycle s = .next (completed status u) := by
    rcases hexec with ⟨hd, rfl⟩ | ⟨i, hd, he⟩
    · exact ⟨.unknown op, cycle_unknown hs hf hd⟩
    · exact ⟨.ok, cycle_instr_completed hs hf hd he hu⟩
  obtain ⟨status, hc⟩ := hcycle
  obtain ⟨t, r, ht, hspec⟩ := completed_spec status u
  exact ⟨t, r, by rw [hc, ht], hspec⟩

end Sys2Proof.Machine
end

section
/-! PROOFS. The family of 41_display.md: clearing the screen (R100). -/

namespace Sys2Proof.Machine

/-- Every cell of the framebuffer that `00E0` writes is off (41_display.md R100). -/
theorem cellOf_replicate_false (cx : Fin 64) (cy : Fin 32) :
    cellOf (Vector.replicate 32 (Vector.replicate 64 false)) cx cy = false := by
  simp only [cellOf, Vector.get_eq_getElem, Vector.getElem_replicate]

theorem sameBut_fb (s : State) (fb : Framebuffer) : SameBut [.fb] s { s with fb := fb } := by
  intro p hp
  cases p with
  | fb => exact absurd (List.mem_singleton_self _) hp
  | mem | regs | keys => exact fun _ => rfl
  | i | pc | stack | sp | dt | st | fault | draws => rfl

/-- Settles O20: `00E0` replaces the framebuffer by one whose cells are all off (`cellOf_replicate_false`), and a new
framebuffer is the only change (`sameBut_fb`). -/
theorem clearTurnsEveryCellOff : Obligations.ClearTurnsEveryCellOff :=
  ⟨by decide, fun s => ⟨_, rfl, cellOf_replicate_false, sameBut_fb s _⟩⟩

end Sys2Proof.Machine
end

section
/-! PROOFS. The words of the formats as the encoding lines of the rules write them, `class | x<<8 | y<<4 | immediate`
(30_encoding.md R72): an operand joined with `|||` fills its field of the word. -/

namespace Sys2Proof.Machine

/-! ### Filling one field -/

theorem xBits_eq_append : ∀ x : Reg, xBits x = (0 : Nibble) ++ BitVec.ofFin (w := 4) x ++ (0 : Byte) := by decide

theorem yBits_eq_append : ∀ y : Reg, yBits y = (0 : Byte) ++ BitVec.ofFin (w := 4) y ++ (0 : Nibble) := by decide

/-- Format `XYN` is format `XB` with y and n as the two nibbles of its byte (R72). -/
theorem encXYN_eq_encXB (c : Nibble) (x y : Reg) (n : Nibble) :
    encXYN c x y n = encXB c x (BitVec.ofFin (w := 4) y ++ n) := by
  rw [encXYN, encXB]
  exact BitVec.append_assoc

theorem encA_or_nnn (c : Nibble) (nnn : Addr) : encA c 0 ||| nnn.setWidth 16 = encA c nnn := by
  rw [encA, show nnn.setWidth 16 = (0 : Nibble) ++ nnn from BitVec.setWidth_eq_append (by decide), BitVec.or_append]
  simp [encA]

theorem encXB_or_xBits (c : Nibble) (x : Reg) (nn : Byte) : encXB c 0 nn ||| xBits x = encXB c x nn := by
  rw [encXB, xBits_eq_append, BitVec.or_append, BitVec.or_append]
  simp [encXB]

theorem encXB_or_nn (c : Nibble) (x : Reg) (nn : Byte) : encXB c x 0 ||| nn.setWidth 16 = encXB c x nn := by
  rw [encXB, show nn.setWidth 16 = (0 : Byte) ++ nn from BitVec.setWidth_eq_append (by decide), BitVec.or_append]
  simp [encXB]

theorem encXYN_or_xBits (c : Nibble) (x y : Reg) (n : Nibble) : encXYN c 0 y n ||| xBits x = encXYN c x y n := by
  rw [encXYN_eq_encXB, encXB_or_xBits, encXYN_eq_encXB]

theorem encXYN_or_yBits (c : Nibble) (x y : Reg) (n : Nibble) : encXYN c x 0 n ||| yBits y = encXYN c x y n := by
  rw [encXYN, yBits_eq_append, BitVec.or_append, BitVec.or_append]
  simp [encXYN]

theorem encXYN_or_n (c : Nibble) (x y : Reg) (n : Nibble) : encXYN c x y 0 ||| n.setWidth 16 = encXYN c x y n := by
  rw [encXYN, show n.setWidth 16 = (0 : Addr) ++ n from BitVec.setWidth_eq_append (by decide), BitVec.or_append]
  simp [encXYN]

/-! ### Filling every field -/

theorem encXB_or_operands (c : Nibble) (x : Reg) (nn : Byte) :
    encXB c 0 0 ||| xBits x ||| nn.setWidth 16 = encXB c x nn := by rw [encXB_or_xBits, encXB_or_nn]

theorem encXYN_or_regs (c : Nibble) (x y : Reg) (n : Nibble) :
    encXYN c 0 0 n ||| xBits x ||| yBits y = encXYN c x y n := by rw [encXYN_or_xBits, encXYN_or_yBits]

theorem encXYN_or_operands (c : Nibble) (x y : Reg) (n : Nibble) :
    encXYN c 0 0 0 ||| xBits x ||| yBits y ||| n.setWidth 16 = encXYN c x y n := by rw [encXYN_or_regs, encXYN_or_n]

end Sys2Proof.Machine
end

section
/-! PROOFS. The family of 42_control_flow.md: return, jump, call and the skips (R121 to R128). -/

namespace Sys2Proof.Machine

/-! ### The words -/

theorem decode_jp (nnn : Addr) : decode (0x1000 ||| nnn.setWidth 16) = .instr (.jp nnn) := by
  rw [show (0x1000 : Word) = encA 0x1 0 from rfl, encA_or_nnn]
  simp [decode]

theorem decode_call (nnn : Addr) : decode (0x2000 ||| nnn.setWidth 16) = .instr (.call nnn) := by
  rw [show (0x2000 : Word) = encA 0x2 0 from rfl, encA_or_nnn]
  simp [decode]

theorem decode_seImm (x : Reg) (nn : Byte) :
    decode (0x3000 ||| xBits x ||| nn.setWidth 16) = .instr (.seImm x nn) := by
  rw [show (0x3000 : Word) = encXB 0x3 0 0 from rfl, encXB_or_operands]
  simp [decode]

theorem decode_sneImm (x : Reg) (nn : Byte) :
    decode (0x4000 ||| xBits x ||| nn.setWidth 16) = .instr (.sneImm x nn) := by
  rw [show (0x4000 : Word) = encXB 0x4 0 0 from rfl, encXB_or_operands]
  simp [decode]

/-- A word of class 5 is `SE Vx, Vy` when its low nibble is 0, and unknown otherwise (R126). -/
theorem decode_encXYN_class5 (x y : Reg) (n : Nibble) :
    decode (encXYN 0x5 x y n) = if n = 0 then .instr (.seReg x y) else .unknown (encXYN 0x5 x y n) := by
  simp [decode]

/-- A word of class 9 is `SNE Vx, Vy` when its low nibble is 0, and unknown otherwise (R127). -/
theorem decode_encXYN_class9 (x y : Reg) (n : Nibble) :
    decode (encXYN 0x9 x y n) = if n = 0 then .instr (.sneReg x y) else .unknown (encXYN 0x9 x y n) := by
  simp [decode]

theorem decode_seReg (x y : Reg) : decode (0x5000 ||| xBits x ||| yBits y) = .instr (.seReg x y) := by
  rw [show (0x5000 : Word) = encXYN 0x5 0 0 0 from rfl, encXYN_or_regs, decode_encXYN_class5, if_pos rfl]

theorem decode_sneReg (x y : Reg) : decode (0x9000 ||| xBits x ||| yBits y) = .instr (.sneReg x y) := by
  rw [show (0x9000 : Word) = encXYN 0x9 0 0 0 from rfl, encXYN_or_regs, decode_encXYN_class9, if_pos rfl]

/-! ### Return and call -/

theorem execRet_nonempty {s : State} {k : Fin 16} (h : s.sp.val = k.val + 1) :
    execRet s = .next ({ s with sp := k.castSucc }.jump s.stack[k]) := by
  simp [execRet, pop_ok s (by omega), h, Fin.castSucc, Fin.castAdd, Fin.castLE]

theorem execRet_empty {s : State} (h : s.sp.val = 0) : execRet s = raise s (.stackUnderflow s.instrAddr) := by
  simp only [execRet, pop_empty s h]

theorem execCall_free {s : State} {k : Fin 16} (h : s.sp.val = k.val) (nnn : Addr) :
    execCall nnn s = .next ({ s with stack := s.stack.set k s.pc, sp := k.succ }.jump (addrOperand nnn)) := by
  simp [execCall, push_ok s s.pc (by omega), h, Fin.succ]

theorem execCall_full {s : State} (h : s.sp.val = 16) (nnn : Addr) :
    execCall nnn s = raise s (.stackOverflow s.instrAddr) := by
  simp only [execCall, push_full s s.pc h]

theorem sameBut_sp_jump (s : State) (n : Fin 17) (w : Word) : SameBut [.pc, .sp] s ({ s with sp := n }.jump w) := by
  intro p hp
  cases p with
  | pc | sp => exact absurd (by decide) hp
  | mem | regs | keys => exact fun _ => rfl
  | fb => exact fun _ _ => rfl
  | i | stack | dt | st | fault | draws => rfl

theorem sameBut_stack_sp_jump (s : State) (stack : Vector Word 16) (n : Fin 17) (w : Word) :
    SameBut [.pc, .stack, .sp] s ({ s with stack := stack, sp := n }.jump w) := by
  intro p hp
  cases p with
  | pc | stack | sp => exact absurd (by decide) hp
  | mem | regs | keys => exact fun _ => rfl
  | fb => exact fun _ _ => rfl
  | i | dt | st | fault | draws => rfl

/-- Settles O23: `00EE` is a pop followed by a jump (`execRet_nonempty`), or the raise of an empty stack. -/
theorem returnPopsTheStack : Obligations.ReturnPopsTheStack :=
  ⟨by decide, fun s => ⟨fun _ h => ⟨_, execRet_nonempty h, rfl, rfl, sameBut_sp_jump s _ _⟩,
    fun h => ⟨_, execRet_empty h, rfl⟩⟩⟩

/-- Settles O24: `1nnn` is a jump, whose whole effect is on the PC (`setsPc_jump`). -/
theorem jumpSetsPc : Obligations.JumpSetsPc := fun nnn s => ⟨decode_jp nnn, _, rfl, setsPc_jump s _⟩

/-- Settles O25: `2nnn` is a push of the advanced PC followed by a jump (`execCall_free`), or the raise of a full
stack. -/
theorem callPushesTheReturnAddress : Obligations.CallPushesTheReturnAddress := by
  refine fun nnn s => ⟨decode_call nnn, fun k h => ?_, fun h => ⟨_, execCall_full h nnn, rfl⟩⟩
  refine ⟨_, execCall_free h nnn, ?_, fun j hj => ?_, rfl, rfl, sameBut_stack_sp_jump s _ _ _⟩
  · exact Vector.getElem_set_self k.isLt
  · exact Vector.getElem_set_ne k.isLt j.isLt fun e => hj (Fin.ext e.symm)

/-! ### Skips -/

/-- A skip on a condition that decides `p` adds 2 to the PC exactly when `p` holds, and changes nothing else (R128). -/
theorem setsPc_skipIf_iff {c : Bool} {p : Prop} [Decidable p] (h : c = true ↔ p) (s : State) :
    SetsPc (if p then s.pc + 2 else s.pc) s (skipIf c s) := by
  simpa only [h] using setsPc_skipIf c s

/-- Settles O27: both instructions are a skip, on `Vx = nn` and on its negation. -/
theorem immediateSkips : Obligations.ImmediateSkips := fun x nn s =>
  ⟨decode_seImm x nn, ⟨_, rfl, setsPc_skipIf_iff beq_iff_eq s⟩,
    decode_sneImm x nn, ⟨_, rfl, setsPc_skipIf_iff bne_iff_ne s⟩⟩

/-- Settles O28: both instructions are a skip, on `Vx = Vy` and on its negation; beside the class, a low nibble other
than 0 alone makes a word of class 5 or 9 unknown (`decode_encXYN_class5`, `decode_encXYN_class9`). -/
theorem registerSkips : Obligations.RegisterSkips := by
  refine fun x y s =>
    ⟨decode_seReg x y, ⟨_, rfl, setsPc_skipIf_iff beq_iff_eq s⟩,
      decode_sneReg x y, ⟨_, rfl, setsPc_skipIf_iff bne_iff_ne s⟩, fun n hn w hw => ?_⟩
  rcases hw with rfl | rfl
  · rw [show (0x5000 : Word) = encXYN 0x5 0 0 0 from rfl, encXYN_or_operands, decode_encXYN_class5, if_neg hn]
  · rw [show (0x9000 : Word) = encXYN 0x9 0 0 0 from rfl, encXYN_or_operands, decode_encXYN_class9, if_neg hn]

end Sys2Proof.Machine
end

section
/-! PROOFS. The family of 43_alu.md: the loads and the addition that write one register and no flag (R141 to R143). -/

namespace Sys2Proof.Machine

/-! ### The words -/

theorem decode_ldImm (x : Reg) (nn : Byte) :
    decode (0x6000 ||| xBits x ||| nn.setWidth 16) = .instr (.ldImm x nn) := by
  rw [show (0x6000 : Word) = encXB 0x6 0 0 from rfl, encXB_or_operands]
  simp [decode]

theorem decode_addImm (x : Reg) (nn : Byte) :
    decode (0x7000 ||| xBits x ||| nn.setWidth 16) = .instr (.addImm x nn) := by
  rw [show (0x7000 : Word) = encXB 0x7 0 0 from rfl, encXB_or_operands]
  simp [decode]

theorem decode_ldReg (x y : Reg) : decode (0x8000 ||| xBits x ||| yBits y) = .instr (.ldReg x y) := by
  rw [show (0x8000 : Word) = encXYN 0x8 0 0 0 from rfl, encXYN_or_regs]
  simp [decode, decodeAlu]

/-! ### One register written -/

/-- Settles O30: the arm of `LD Vx, nn` is one register write, of the immediate. -/
theorem loadImmediateSetsVx : Obligations.LoadImmediateSetsVx := fun x nn s =>
  ⟨decode_ldImm x nn, _, rfl, setsReg_setReg s x nn⟩

/-- The sum of two bytes as R142 writes it, taken modulo 256, is their 8-bit addition. -/
theorem ofNat_toNat_add_mod (a b : Byte) : BitVec.ofNat 8 ((a.toNat + b.toNat) % 256) = a + b := by
  rw [← BitVec.toNat_add, BitVec.ofNat_toNat, BitVec.setWidth_eq]

/-- Settles O31: the arm of `ADD Vx, nn` is one register write, of the 8-bit sum (`ofNat_toNat_add_mod`). -/
theorem addImmediateWraps : Obligations.AddImmediateWraps := fun x nn s =>
  ⟨decode_addImm x nn, _, rfl, ofNat_toNat_add_mod (s.reg x) nn ▸ setsReg_setReg s x _⟩

/-- Settles O32: the arm of `LD Vx, Vy` is one register write, of Vy as it was. -/
theorem copyRegister : Obligations.CopyRegister := fun x y s =>
  ⟨decode_ldReg x y, _, rfl, setsReg_setReg s x (s.reg y)⟩

end Sys2Proof.Machine
end

section
/-! PROOFS. The family of 44_index_memory.md: loading I (R170) and storing the decimal digits of Vx (R174, R175). -/

namespace Sys2Proof.Machine

/-! ### The words -/

theorem decode_ldI (nnn : Addr) : decode (0xA000 ||| nnn.setWidth 16) = .instr (.ldI nnn) := by
  rw [show (0xA000 : Word) = encA 0xA 0 from rfl, encA_or_nnn]
  simp [decode]

theorem decode_ldBVx (x : Reg) : decode (0xF033 ||| xBits x) = .instr (.ldBVx x) := by
  rw [show (0xF033 : Word) = encXB 0xF 0 0x33 from rfl, encXB_or_xBits]
  simp [decode, decodeMisc]

/-! ### The index register -/

/-- Settles O38: the arm of `LD I, nnn` is one write of I, whose frame is `sameBut_setI`. -/
theorem loadIndexSetsI : Obligations.LoadIndexSetsI := fun nnn s => ⟨decode_ldI nnn, _, rfl, rfl, sameBut_setI s _⟩

/-! ### The decimal digits -/

/-- The address a failing block transfer reports is the lowest invalid one of its block (R175). -/
theorem firstInvalid_max {base len : Nat} (h : len ≠ 0) (h' : 0x1000 < base + len) :
    FirstInvalid base len (max base 0x1000) :=
  ⟨by omega, by omega, by omega, fun _ _ _ _ => by omega⟩

theorem length_bcdDigits (b : Byte) : (bcdDigits b).length = 3 := rfl

theorem execLdBVx_of_ok {x : Reg} {s t : State} (h : s.writeBlock s.i.toNat (bcdDigits (s.reg x)) = .ok t) :
    execLdBVx x s = .next t := by simp only [execLdBVx, h]

theorem execLdBVx_beyond (x : Reg) {s : State} (h : 0xFFF < s.i.toNat + 2) :
    execLdBVx x s = raise s (.memoryOutOfBounds (max s.i.toNat 0x1000) .write) := by
  have hlen := length_bcdDigits (s.reg x)
  have hw : s.writeBlock s.i.toNat (bcdDigits (s.reg x)) = .error (.memoryOutOfBounds (max s.i.toNat 0x1000) .write) :=
    writeBlock_error s (by omega) (by omega)
  simp only [execLdBVx, hw]

/-- Settles O40: `LD B` is the block write of `bcdDigits` at I. Where the block lies in memory, `writeBlock_spec` reads
the three digits back and gives the frame; otherwise the address raised is the block's first invalid one
(`firstInvalid_max`). -/
theorem bcdStoresThreeDigits : Obligations.BcdStoresThreeDigits := by
  refine fun x s => ⟨decode_ldBVx x, fun hm hi => ?_, fun hi => ?_⟩
  · have hlen := length_bcdDigits (s.reg x)
    have hblock : s.i.toNat + (bcdDigits (s.reg x)).length ≤ 0x1000 := by omega
    obtain ⟨t, hw, hin, hout, hframe, -⟩ := writeBlock_spec hm hblock
    refine ⟨t, execLdBVx_of_ok hw, ?hundreds, ?tens, ?ones, fun a ha => hout a (by omega), hframe⟩
    case hundreds => simpa [bcdDigits] using congrArg BitVec.toNat (hin 0 (by omega))
    case tens => simpa [bcdDigits] using congrArg BitVec.toNat (hin 1 (by omega))
    case ones => simpa [bcdDigits] using congrArg BitVec.toNat (hin 2 (by omega))
  · exact ⟨_, _, execLdBVx_beyond x hi, firstInvalid_max (by omega) (by omega), rfl⟩

end Sys2Proof.Machine
end

section
/-! PROOFS. The family of 45_keypad_timers.md: reading and setting the timers (R193, R196, R197) and the lowest key down
(R195). -/

namespace Sys2Proof.Machine

/-! ### The words -/

/-- A word of class F is read by its low byte (R75). -/
theorem decode_classF (x : Reg) (nn : Byte) : decode (encXB 0xF 0 nn ||| xBits x) = decodeMisc (encXB 0xF x nn) := by
  rw [encXB_or_xBits]
  simp [decode]

theorem decode_ldVxDt (x : Reg) : decode (0xF007 ||| xBits x) = .instr (.ldVxDt x) :=
  (decode_classF x 0x07).trans (by simp [decodeMisc])

theorem decode_ldDtVx (x : Reg) : decode (0xF015 ||| xBits x) = .instr (.ldDtVx x) :=
  (decode_classF x 0x15).trans (by simp [decodeMisc])

theorem decode_ldStVx (x : Reg) : decode (0xF018 ||| xBits x) = .instr (.ldStVx x) :=
  (decode_classF x 0x18).trans (by simp [decodeMisc])

/-! ### The lowest key down -/

/-- `any_pressed()` is the library's search for the lowest index, whose lemmas say what it finds (R195). -/
theorem anyPressed_eq_find? (s : State) : s.anyPressed = Fin.find? s.keyDown := Fin.find?_eq_find?_finRange.symm

theorem execLdVxK_of_pressed {s : State} {k : Key} (h : s.anyPressed = some k) (x : Reg) :
    execLdVxK x s = .next (s.setReg x (BitVec.ofNat 8 k.val)) := by simp only [execLdVxK, h]

/-- A key number fits a byte. -/
theorem toNat_ofNat_key (k : Key) : (BitVec.ofNat 8 k.val).toNat = k.val :=
  (BitVec.toNat_ofNat k.val 8).trans (Nat.mod_eq_of_lt (by omega))

/-- Settles O49: `any_pressed()` finds the lowest index (`anyPressed_eq_find?`), and `Fx0A` writes the key it answers to
Vx. -/
theorem anyPressedIsTheLowestKey : Obligations.AnyPressedIsTheLowestKey := by
  refine fun s => ⟨?none, fun k => ?lowest, fun x k hk => ⟨_, execLdVxK_of_pressed hk x, ?taken⟩⟩
  case none => rw [anyPressed_eq_find?, Fin.find?_eq_none_iff]
  case lowest => rw [anyPressed_eq_find?, Fin.find?_eq_some_iff]
  case taken => rw [State.reg_setReg_same, toNat_ofNat_key]

/-! ### The timers -/

/-- Settles O47: the arm of `LD Vx, DT` is one register write, of DT before the tick. -/
theorem readDelayTimer : Obligations.ReadDelayTimer := fun x s => ⟨decode_ldVxDt x, _, rfl, setsReg_setReg s x s.dt⟩

/-- Settles O50: the arm of `LD DT, Vx` is one write of DT (`sameBut_setDt`), which leaves a running state running, so
the cycle ends in a tick (`endCycle_completed`, `tickDown_toNat`). -/
theorem setDelayTimer : Obligations.SetDelayTimer := by
  refine fun x s => ⟨decode_ldDtVx x, _, rfl, rfl, sameBut_setDt s _, fun h => ?_⟩
  rw [endCycle_completed (t := s.setDt (s.reg x)) h]
  exact tickDown_toNat _

/-- Settles O51: the arm of `LD ST, Vx` is one write of ST (`sameBut_setSt`); in a running state the cycle ends in a
tick, and the sound tick tests the byte just written. -/
theorem setSoundTimer : Obligations.SetSoundTimer := by
  refine fun x s => ⟨decode_ldStVx x, _, rfl, rfl, sameBut_setSt s _, fun h => ?_⟩
  rw [endCycle_completed (t := s.setSt (s.reg x)) h]
  exact ⟨tickDown_toNat _, beq_iff_eq⟩

end Sys2Proof.Machine
end

section
/-! PROOFS. The family of 60_exceptions.md: the host's read of the framebuffer (R227). -/

namespace Sys2Proof.Machine

/-- Flattening a vector of vectors is flattening their lists. -/
theorem toList_flatten_eq_flatMap {α : Type} {m n : Nat} (xss : Vector (Vector α m) n) :
    xss.flatten.toList = xss.toList.flatMap Vector.toList := by
  simp [Vector.flatten, List.flatMap_def, Function.comp_def, Vector.toList_toArray]

/-- The host reads the rows one after another, each cell as a byte: the library's flattening of the rows (R227). -/
theorem State.fbRead_eq_map_flatten (s : State) :
    s.fbRead = s.fb.flatten.toList.map fun on => if on then 1 else 0 := by
  rw [toList_flatten_eq_flatMap, List.map_flatMap, State.fbRead]

theorem State.length_fbRead (s : State) : s.fbRead.length = 2048 := by
  rw [fbRead_eq_map_flatten, List.length_map, Vector.length_toList]

/-- Rows are 64 cells wide, so row and column are the quotient and the remainder of the index by 64. -/
theorem getElem?_flatten_eq_cellOf (fb : Framebuffer) (cx : Fin 64) (cy : Fin 32) :
    fb.flatten[cy.val * 64 + cx.val]? = some (cellOf fb cx cy) := by
  have hlt : cy.val * 64 + cx.val < 32 * 64 := by omega
  have hrow : (cy.val * 64 + cx.val) / 64 = cy.val := by omega
  have hcol : (cy.val * 64 + cx.val) % 64 = cx.val := by omega
  simp only [Vector.getElem?_flatten, hlt, hrow, hcol, dite_true, cellOf, Vector.get_eq_getElem]

/-- Settles O60: `fb_read` is the flattened framebuffer, cell by cell as bytes (`State.fbRead_eq_map_flatten`), whose
cell at `cy * 64 + cx` is the one at column `cx` and row `cy` (`getElem?_flatten_eq_cellOf`). -/
theorem framebufferReadIsRowMajor : Obligations.FramebufferReadIsRowMajor := by
  refine fun s => ⟨s.length_fbRead, fun cx cy => ?rowMajor, rfl⟩
  case rowMajor =>
    rw [s.fbRead_eq_map_flatten, List.getElem?_map, Vector.getElem?_toList, getElem?_flatten_eq_cellOf]
    rfl

end Sys2Proof.Machine
end

section
/-! PROOFS. The decoder and the encoder against each other, against the opcode table (30_encoding.md R75) and against
the list of unknown words (R77). -/

namespace Sys2Proof.Machine

/-! ### A word is its fields -/

theorem encA_fields (op : Word) : encA (fieldC op) (fieldNNN op) = op := by
  apply BitVec.eq_of_toNat_eq
  rw [encA_toNat, fieldC_toNat, fieldNNN_toNat]
  omega

theorem encXB_fields (op : Word) : encXB (fieldC op) (fieldX op) (fieldNN op) = op := by
  apply BitVec.eq_of_toNat_eq
  rw [encXB_toNat, fieldC_toNat, fieldX_val, fieldNN_toNat]
  omega

theorem encXYN_fields (op : Word) : encXYN (fieldC op) (fieldX op) (fieldY op) (fieldN op) = op := by
  apply BitVec.eq_of_toNat_eq
  rw [encXYN_toNat, fieldC_toNat, fieldX_val, fieldY_val, fieldN_toNat]
  omega

/-- A word of class `c` in format `A`, from the class as the decoder tests it. -/
theorem encA_of_class {op : Word} {c : Nibble} (hc : (fieldC op).toNat = c.toNat) : encA c (fieldNNN op) = op := by
  rw [← BitVec.eq_of_toNat_eq hc, encA_fields]

theorem encXB_of_class {op : Word} {c : Nibble} (hc : (fieldC op).toNat = c.toNat) :
    encXB c (fieldX op) (fieldNN op) = op := by
  rw [← BitVec.eq_of_toNat_eq hc, encXB_fields]

theorem encXB_of_class_byte {op : Word} {c : Nibble} {nn : Byte} (hc : (fieldC op).toNat = c.toNat)
    (hnn : (fieldNN op).toNat = nn.toNat) : encXB c (fieldX op) nn = op := by
  rw [← BitVec.eq_of_toNat_eq hnn, encXB_of_class hc]

theorem encXYN_of_class {op : Word} {c : Nibble} (hc : (fieldC op).toNat = c.toNat) :
    encXYN c (fieldX op) (fieldY op) (fieldN op) = op := by
  rw [← BitVec.eq_of_toNat_eq hc, encXYN_fields]

theorem encXYN_of_class_nibble {op : Word} {c n : Nibble} (hc : (fieldC op).toNat = c.toNat)
    (hn : (fieldN op).toNat = n.toNat) : encXYN c (fieldX op) (fieldY op) n = op := by
  rw [← BitVec.eq_of_toNat_eq hn, encXYN_of_class hc]

/-! ### Decoding an encoding -/

/-- Settles O1: each format gives its fields back (`fieldC_encA` and the other lemmas of Laws/Decode.lean), so the
decoder finds the class, the sub-operation and the operands that were encoded. -/
theorem decodeOfEncode : Obligations.DecodeOfEncode := by
  intro i
  cases i with
  | cls | ret => decide
  | jp | call | ldI | jpV0 => simp [encode, decode]
  | seImm | sneImm | ldImm | addImm | rnd => simp [encode, decode]
  | seReg | sneReg | drw => simp [encode, decode]
  | ldReg | orReg | andReg | xorReg | addReg | sub | shr | subn | shl => simp [encode, decode, decodeAlu]
  | skp | sknp => simp [encode, decode, decodeKey]
  | ldVxDt | ldVxK | ldDtVx | ldStVx | addIVx | ldFVx | ldBVx | storeVx | loadVx =>
    simp [encode, decode, decodeMisc]

/-! ### Encoding what a word decodes to -/

/-- What the decoder answers for `op` is right of it: an instruction whose word is `op`, or `Unknown` of `op` itself. -/
def DecodesRight (op : Word) : Decoded → Prop
  | .instr i => encode i = op
  | .unknown w => w = op

theorem decodesRight_decodeSys (op : Word) : DecodesRight op (decodeSys op) := by
  unfold decodeSys
  split
  · next h => exact h.symm
  · split
    · next h => exact h.symm
    · exact rfl

theorem decodesRight_decodeAlu {op : Word} (hc : (fieldC op).toNat = 0x8) : DecodesRight op (decodeAlu op) := by
  unfold decodeAlu
  split
  case h_10 => exact rfl
  all_goals exact encXYN_of_class_nibble hc ‹_›

theorem decodesRight_decodeKey {op : Word} (hc : (fieldC op).toNat = 0xE) : DecodesRight op (decodeKey op) := by
  unfold decodeKey
  split
  case h_3 => exact rfl
  all_goals exact encXB_of_class_byte hc ‹_›

theorem decodesRight_decodeMisc {op : Word} (hc : (fieldC op).toNat = 0xF) : DecodesRight op (decodeMisc op) := by
  unfold decodeMisc
  split
  case h_10 => exact rfl
  all_goals exact encXB_of_class_byte hc ‹_›

theorem decodesRight_decode (op : Word) : DecodesRight op (decode op) := by
  unfold decode
  split
  case h_1 => exact decodesRight_decodeSys op
  case h_6 hc | h_10 hc =>
    split
    · next hn => exact encXYN_of_class_nibble hc (congrArg BitVec.toNat hn)
    · exact rfl
  case h_9 hc => exact decodesRight_decodeAlu hc
  case h_14 hc => exact encXYN_of_class hc
  case h_15 hc => exact decodesRight_decodeKey hc
  case h_16 =>
    have hlt := (fieldC op).isLt
    exact decodesRight_decodeMisc (by simp only [imp_false] at *; omega)
  case h_2 hc | h_3 hc | h_11 hc | h_12 hc => exact encA_of_class hc
  case h_4 hc | h_5 hc | h_7 hc | h_8 hc | h_13 hc => exact encXB_of_class hc

/-- Settles O2: in every class the word is its fields put together again (`decodesRight_decode`). -/
theorem encodeOfDecode : Obligations.EncodeOfDecode := by
  intro op i h
  have hright := decodesRight_decode op
  rwa [h] at hright

theorem eq_of_decode_unknown {op w : Word} (h : decode op = .unknown w) : w = op := by
  have hright := decodesRight_decode op
  rwa [h] at hright

/-! ### The opcode table -/

/-- The word of an instruction is selected by the row of that instruction (the family `Laws.Encodes`). -/
theorem definedWord_encode : ∀ i : Instr, definedWord (encode i) = true
  | .cls => Laws.Encodes.cls
  | .ret => Laws.Encodes.ret
  | .jp nnn => Laws.Encodes.jp nnn
  | .call nnn => Laws.Encodes.call nnn
  | .seImm x nn => Laws.Encodes.seImm x nn
  | .sneImm x nn => Laws.Encodes.sneImm x nn
  | .seReg x y => Laws.Encodes.seReg x y
  | .ldImm x nn => Laws.Encodes.ldImm x nn
  | .addImm x nn => Laws.Encodes.addImm x nn
  | .ldReg x y => Laws.Encodes.ldReg x y
  | .orReg x y => Laws.Encodes.orReg x y
  | .andReg x y => Laws.Encodes.andReg x y
  | .xorReg x y => Laws.Encodes.xorReg x y
  | .addReg x y => Laws.Encodes.addReg x y
  | .sub x y => Laws.Encodes.sub x y
  | .shr x y => Laws.Encodes.shr x y
  | .subn x y => Laws.Encodes.subn x y
  | .shl x y => Laws.Encodes.shl x y
  | .sneReg x y => Laws.Encodes.sneReg x y
  | .ldI nnn => Laws.Encodes.ldI nnn
  | .jpV0 nnn => Laws.Encodes.jpV0 nnn
  | .rnd x nn => Laws.Encodes.rnd x nn
  | .drw x y n => Laws.Encodes.drw x y n
  | .skp x => Laws.Encodes.skp x
  | .sknp x => Laws.Encodes.sknp x
  | .ldVxDt x => Laws.Encodes.ldVxDt x
  | .ldVxK x => Laws.Encodes.ldVxK x
  | .ldDtVx x => Laws.Encodes.ldDtVx x
  | .ldStVx x => Laws.Encodes.ldStVx x
  | .addIVx x => Laws.Encodes.addIVx x
  | .ldFVx x => Laws.Encodes.ldFVx x
  | .ldBVx x => Laws.Encodes.ldBVx x
  | .storeVx x => Laws.Encodes.storeVx x
  | .loadVx x => Laws.Encodes.loadVx x

/-! A word that a mask and a pattern of the table select, format by format, is the word of an instruction `mk` makes. -/

theorem exists_encode_A (mk : Addr → Instr) {c : Nibble} (hmk : ∀ nnn, encode (mk nnn) = encA c nnn) {op : Word}
    (h : op &&& 0xF000 = encA c 0) : ∃ i, encode i = op := by
  rw [← encA_fields op, Laws.Encodes.encA_class] at h
  have hc : fieldC op = c := by simpa using congrArg fieldC h
  exact ⟨mk (fieldNNN op), by rw [hmk, ← hc, encA_fields]⟩

theorem exists_encode_XB (mk : Reg → Byte → Instr) {c : Nibble} (hmk : ∀ x nn, encode (mk x nn) = encXB c x nn)
    {op : Word} (h : op &&& 0xF000 = encXB c 0 0) : ∃ i, encode i = op := by
  rw [← encXB_fields op, Laws.Encodes.encXB_class] at h
  have hc : fieldC op = c := by simpa using congrArg fieldC h
  exact ⟨mk (fieldX op) (fieldNN op), by rw [hmk, ← hc, encXB_fields]⟩

theorem exists_encode_X (mk : Reg → Instr) {c : Nibble} {nn : Byte} (hmk : ∀ x, encode (mk x) = encXB c x nn)
    {op : Word} (h : op &&& 0xF0FF = encXB c 0 nn) : ∃ i, encode i = op := by
  rw [← encXB_fields op, Laws.Encodes.encXB_class_byte] at h
  have hc : fieldC op = c := by simpa using congrArg fieldC h
  have hnn : fieldNN op = nn := by simpa using congrArg fieldNN h
  exact ⟨mk (fieldX op), by rw [hmk, ← hc, ← hnn, encXB_fields]⟩

theorem exists_encode_XYN (mk : Reg → Reg → Nibble → Instr) {c : Nibble}
    (hmk : ∀ x y n, encode (mk x y n) = encXYN c x y n) {op : Word} (h : op &&& 0xF000 = encXYN c 0 0 0) :
    ∃ i, encode i = op := by
  rw [← encXYN_fields op, Laws.Encodes.encXYN_class] at h
  have hc : fieldC op = c := by simpa using congrArg fieldC h
  exact ⟨mk (fieldX op) (fieldY op) (fieldN op), by rw [hmk, ← hc, encXYN_fields]⟩

theorem exists_encode_XY (mk : Reg → Reg → Instr) {c n : Nibble} (hmk : ∀ x y, encode (mk x y) = encXYN c x y n)
    {op : Word} (h : op &&& 0xF00F = encXYN c 0 0 n) : ∃ i, encode i = op := by
  rw [← encXYN_fields op, Laws.Encodes.encXYN_class_nibble] at h
  have hc : fieldC op = c := by simpa using congrArg fieldC h
  have hn : fieldN op = n := by simpa using congrArg fieldN h
  exact ⟨mk (fieldX op) (fieldY op), by rw [hmk, ← hc, ← hn, encXYN_fields]⟩

theorem exists_encode_fixed (i : Instr) {op : Word} (h : op &&& 0xFFFF = encode i) : ∃ i, encode i = op :=
  ⟨i, h.symm.trans BitVec.and_allOnes⟩

/-- Every word that a row of the table selects is the word of an instruction. -/
theorem exists_encode_of_row {op : Word} : ∀ r ∈ opcodeRows, op &&& r.mask = r.pat → ∃ i, encode i = op := by
  simp only [opcodeRows, List.forall_mem_append, List.forall_mem_cons, and_assoc]
  exact ⟨exists_encode_fixed .cls, exists_encode_fixed .ret, exists_encode_A .jp fun _ => rfl,
    exists_encode_A .call fun _ => rfl, exists_encode_XB .seImm fun _ _ => rfl,
    exists_encode_XB .sneImm fun _ _ => rfl, List.forall_mem_nil _, exists_encode_XY .seReg fun _ _ => rfl,
    exists_encode_XB .ldImm fun _ _ => rfl, exists_encode_XB .addImm fun _ _ => rfl,
    exists_encode_XY .ldReg fun _ _ => rfl, exists_encode_XY .orReg fun _ _ => rfl,
    exists_encode_XY .andReg fun _ _ => rfl, List.forall_mem_nil _, exists_encode_XY .xorReg fun _ _ => rfl,
    exists_encode_XY .addReg fun _ _ => rfl, exists_encode_XY .sub fun _ _ => rfl,
    exists_encode_XY .shr fun _ _ => rfl, exists_encode_XY .subn fun _ _ => rfl,
    exists_encode_XY .shl fun _ _ => rfl, List.forall_mem_nil _, exists_encode_XY .sneReg fun _ _ => rfl,
    exists_encode_A .ldI fun _ => rfl, exists_encode_A .jpV0 fun _ => rfl, exists_encode_XB .rnd fun _ _ => rfl,
    exists_encode_XYN .drw fun _ _ _ => rfl, exists_encode_X .skp fun _ => rfl, List.forall_mem_nil _,
    exists_encode_X .sknp fun _ => rfl, exists_encode_X .ldVxDt fun _ => rfl, exists_encode_X .ldVxK fun _ => rfl,
    exists_encode_X .ldDtVx fun _ => rfl, exists_encode_X .ldStVx fun _ => rfl,
    exists_encode_X .addIVx fun _ => rfl, List.forall_mem_nil _, exists_encode_X .ldFVx fun _ => rfl,
    exists_encode_X .ldBVx fun _ => rfl, exists_encode_X .storeVx fun _ => rfl,
    exists_encode_X .loadVx fun _ => rfl, List.forall_mem_nil _⟩

theorem exists_encode_of_definedWord {op : Word} (h : definedWord op = true) : ∃ i, encode i = op := by
  obtain ⟨r, hr, hsel⟩ := List.any_eq_true.mp h
  exact exists_encode_of_row r hr (beq_iff_eq.mp hsel)

/-- Settles O3: a word that a row selects is the word of an instruction (`exists_encode_of_definedWord`), which decodes
to it; a word that decodes to an instruction is that instruction's word, which a row selects (`definedWord_encode`). -/
theorem decoderAgreesWithOpcodeTable : Obligations.DecoderAgreesWithOpcodeTable := by
  refine fun op => ⟨fun h => ?defined, fun h => ?undefined⟩
  case defined =>
    obtain ⟨i, rfl⟩ := exists_encode_of_definedWord h
    exact ⟨i, decodeOfEncode i⟩
  case undefined =>
    cases hd : decode op with
    | unknown w => rw [eq_of_decode_unknown hd]
    | instr i =>
      have hdef := definedWord_encode i
      rw [encodeOfDecode op i hd, h] at hdef
      exact absurd hdef Bool.false_ne_true

/-! ### The unknown words -/

theorem decodeSys_eq_unknown_iff (op : Word) : decodeSys op = .unknown op ↔ op ≠ 0x00E0 ∧ op ≠ 0x00EE := by
  unfold decodeSys
  by_cases hcls : op = 0x00E0
  · simp [hcls]
  · by_cases hret : op = 0x00EE <;> simp_all

theorem decodeAlu_eq_unknown_iff (op : Word) :
    decodeAlu op = .unknown op ↔ op.toNat % 16 ∈ [0x8, 0x9, 0xA, 0xB, 0xC, 0xD, 0xF] := by
  rw [← fieldN_toNat]
  have hlt := (fieldN op).isLt
  unfold decodeAlu
  split
  case h_10 => simp_all; omega
  all_goals simp [*]

theorem decodeKey_eq_unknown_iff (op : Word) : decodeKey op = .unknown op ↔ op.toNat % 256 ∉ [0x9E, 0xA1] := by
  rw [← fieldNN_toNat]
  unfold decodeKey
  split <;> simp_all

theorem decodeMisc_eq_unknown_iff (op : Word) :
    decodeMisc op = .unknown op ↔ op.toNat % 256 ∉ [0x07, 0x0A, 0x15, 0x18, 0x1E, 0x29, 0x33, 0x55, 0x65] := by
  rw [← fieldNN_toNat]
  unfold decodeMisc
  split <;> simp_all

/-- Settles O4: one case for each class of the decoder; in the six classes that have unknown words, they are the words
that the decoder of that class does not know. -/
theorem unknownWordsAreTheListedClasses : Obligations.UnknownWordsAreTheListedClasses := by
  intro op
  rw [← decodeSys_eq_unknown_iff, ← decodeAlu_eq_unknown_iff, ← decodeKey_eq_unknown_iff,
    ← decodeMisc_eq_unknown_iff, ← fieldC_toNat, ← fieldN_toNat]
  have hlt := (fieldC op).isLt
  unfold decode
  split
  case h_1 hc | h_9 hc | h_15 hc => simp [hc]
  case h_6 hc | h_10 hc => simp [hc, BitVec.toNat_eq]
  case h_16 =>
    have hc : (fieldC op).toNat = 0xF := by simp only [imp_false] at *; omega
    simp [hc]
  all_goals simp [*]

/-- Settles O5: the ten words are run through the decoder. -/
theorem specWordsDecode : Obligations.SpecWordsDecode := by
  unfold Obligations.SpecWordsDecode
  decide

end Sys2Proof.Machine
end

section
/-! PROOFS. Frames: two updates in a row change the parts of both, and the frames of the updates that Laws/Frames.lean
does not list by themselves. -/

namespace Sys2Proof.Machine

theorem Part.same_trans {p : Part} {s t u : State} (h : p.same s t) (h' : p.same t u) : p.same s u := by
  cases p with
  | mem | regs | keys => exact fun a => (h' a).trans (h a)
  | fb => exact fun cx cy => (h' cx cy).trans (h cx cy)
  | i | pc | stack | sp | dt | st | fault | draws => exact Eq.trans h' h

theorem SameBut.trans {ps qs : List Part} {s t u : State} (h : SameBut ps s t) (h' : SameBut qs t u) :
    SameBut (ps ++ qs) s u := fun p hp =>
  Part.same_trans (h p fun hps => hp (List.mem_append_left qs hps)) (h' p fun hqs => hp (List.mem_append_right ps hqs))

theorem sameBut_setReg (s : State) (x : Reg) (b : Byte) : SameBut [.regs] s (s.setReg x b) := (setsReg_setReg s x b).2.2

theorem sameBut_setRegFlag (s : State) (x : Reg) (b f : Byte) : SameBut [.regs] s (s.setRegFlag x b f) :=
  (setsRegFlag_setRegFlag s x b f).2.2.2

theorem sameBut_jump (s : State) (w : Word) : SameBut [.pc] s (s.jump w) := (setsPc_jump s w).2

theorem sameBut_nextDraw (s : State) : SameBut [.draws] s s.nextDraw := by
  intro p hp
  cases p with
  | draws => exact absurd (List.mem_singleton_self _) hp
  | mem | regs | keys => exact fun _ => rfl
  | fb => exact fun _ _ => rfl
  | i | pc | stack | sp | dt | st | fault => rfl

theorem sameBut_keys (s : State) (keys : Vector Bool 16) : SameBut [.keys] s { s with keys := keys } := by
  intro p hp
  cases p with
  | keys => exact absurd (List.mem_singleton_self _) hp
  | mem | regs => exact fun _ => rfl
  | fb => exact fun _ _ => rfl
  | i | pc | stack | sp | dt | st | fault | draws => rfl

end Sys2Proof.Machine
end

section
/-! PROOFS. The family of 44_index_memory.md: index arithmetic (R171 to R173) and the block transfers between registers
and memory (R175 to R177). -/

namespace Sys2Proof.Machine

/-! ### The index register -/

theorem byteOperand_toNat (b : Byte) : (byteOperand b).toNat = b.toNat := by
  simp only [byteOperand, BitVec.toNat_setWidth]
  omega

theorem glyphAddr_toNat (b : Byte) : (glyphAddr b).toNat = b.toNat * 5 := by
  rw [glyphAddr, BitVec.toNat_mul, byteOperand_toNat, show (5 : Word).toNat = 5 from rfl]
  omega

/-- Settles O39: both instructions are one write of I (`sameBut_setI`), of a 16-bit sum and of a product that fits. -/
theorem indexArithmetic : Obligations.IndexArithmetic := by
  refine fun x s => ⟨⟨_, rfl, ?sum, sameBut_setI s _⟩, ⟨_, rfl, glyphAddr_toNat _, sameBut_setI s _⟩⟩
  case sum => rw [State.setI_i, BitVec.toNat_add, byteOperand_toNat]

/-! ### The data of a block transfer -/

theorem length_regsUpTo (s : State) (x : Reg) : (regsUpTo s x).length = x.val + 1 := by
  simp only [regsUpTo, List.length_take, Vector.length_toList]
  omega

theorem getElem_regsUpTo (s : State) {x r : Reg} (h : r.val < (regsUpTo s x).length) :
    (regsUpTo s x)[r.val] = s.reg r := by
  simp [regsUpTo, State.reg]

theorem getElem_map_blockAddrs (f : Nat → Byte) (base len k : Nat) (h : k < ((blockAddrs base len).map f).length) :
    ((blockAddrs base len).map f)[k] = f (base + k) := by
  simp [blockAddrs]

theorem length_map_blockAddrs (f : Nat → Byte) (base len : Nat) : ((blockAddrs base len).map f).length = len := by
  simp [blockAddrs]

/-! ### The store -/

theorem execStoreVx_of_ok {x : Reg} {s t : State} (h : s.writeBlock s.i.toNat (regsUpTo s x) = .ok t) :
    execStoreVx x s = .next t := by simp only [execStoreVx, h]

theorem execStoreVx_beyond {x : Reg} {s : State} (h : 0x1000 < s.i.toNat + (x.val + 1)) :
    execStoreVx x s = raise s (.memoryOutOfBounds (max s.i.toNat 0x1000) .write) := by
  have hlen := length_regsUpTo s x
  have hw : s.writeBlock s.i.toNat (regsUpTo s x) = .error (.memoryOutOfBounds (max s.i.toNat 0x1000) .write) :=
    writeBlock_error s (by omega) (by omega)
  simp only [execStoreVx, hw]

/-- Settles O41: `LD [I], Vx` is the block write of V0..Vx at I, which `writeBlock_spec` describes. -/
theorem storeWritesRegistersToMemory : Obligations.StoreWritesRegistersToMemory := by
  intro x s hm hi
  have hlen := length_regsUpTo s x
  obtain ⟨t, hw, hin, hout, hframe, -⟩ := writeBlock_spec hm (bs := regsUpTo s x) (base := s.i.toNat) (by omega)
  refine ⟨t, execStoreVx_of_ok hw, fun r hr => ?stored, fun a ha => hout a (by omega), hframe⟩
  case stored =>
    have hr' : r.val < (regsUpTo s x).length := by
      rw [hlen]
      exact Nat.lt_succ_of_le hr
    rw [hin r.val hr', getElem_regsUpTo]

/-! ### The load -/

theorem execLoadVx_inside {x : Reg} {s : State} (h : s.i.toNat + x.val ≤ 0xFFF) :
    execLoadVx x s = .next (s.setRegsFrom 0 ((blockAddrs s.i.toNat (x.val + 1)).map s.byteAt)) := by
  simp only [execLoadVx, readBlock_ok s (.inr (show s.i.toNat + (x.val + 1) ≤ 0x1000 by omega))]

theorem execLoadVx_beyond {x : Reg} {s : State} (h : 0x1000 < s.i.toNat + (x.val + 1)) :
    execLoadVx x s = raise s (.memoryOutOfBounds (max s.i.toNat 0x1000) .read) := by
  simp only [execLoadVx, readBlock_error s (Nat.succ_ne_zero _) h]

/-- The registers after a load of V0..Vx. -/
theorem reg_setRegsFrom_blockAddrs (s : State) (f : Nat → Byte) (base : Nat) (x r : Reg) :
    (s.setRegsFrom 0 ((blockAddrs base (x.val + 1)).map f)).reg r = if r ≤ x then f (base + r.val) else s.reg r := by
  rw [reg_setRegsFrom]
  simp only [length_map_blockAddrs, getElem_map_blockAddrs, Nat.sub_zero, dite_eq_ite]
  exact if_congr (by rw [Fin.le_def]; omega) rfl rfl

/-- Settles O42: `LD Vx, [I]` reads the block at I into V0..Vx, whose effect on each register is
`reg_setRegsFrom_blockAddrs`. -/
theorem loadReadsRegistersFromMemory : Obligations.LoadReadsRegistersFromMemory := by
  refine fun x s hi => ⟨_, execLoadVx_inside hi, fun r hr => ?loaded, fun r hr => ?kept, sameBut_setRegsFrom s _ _⟩
  case loaded => rw [reg_setRegsFrom_blockAddrs, if_pos hr]
  case kept => rw [reg_setRegsFrom_blockAddrs, if_neg (not_le.mpr hr)]

/-- Settles O44: the store leaves I and puts V0..Vx where the load reads them. -/
theorem loadAfterStoreRestoresRegisters : Obligations.LoadAfterStoreRestoresRegisters := by
  intro x s vs hm hi
  obtain ⟨t, ht, hstored, -, hframe⟩ := storeWritesRegistersToMemory x s hm hi
  have hti : t.i = s.i := hframe .i (by decide)
  obtain ⟨u, hu, hloaded, -, -⟩ := loadReadsRegistersFromMemory x { t with v := vs } (by rwa [hti])
  refine ⟨t, u, ht, hu, fun r hr => ?_⟩
  calc u.reg r = t.byteAt (t.i.toNat + r.val) := hloaded r hr
    _ = t.byteAt (s.i.toNat + r.val) := by rw [hti]
    _ = s.reg r := hstored r hr

/-- Settles O45: the fetch reads memory as the store left it (`fetch_ok`). -/
theorem storeIsSeenByTheNextFetch : Obligations.StoreIsSeenByTheNextFetch := by
  intro x r q s hm hi hq hqx
  obtain ⟨t, ht, hstored, -, -⟩ := storeWritesRegistersToMemory x s hm hi
  have hqx' : q.val ≤ x.val := hqx
  have hpc : (BitVec.ofNat 16 (s.i.toNat + r.val)).toNat = s.i.toNat + r.val := by
    rw [BitVec.toNat_ofNat]
    omega
  have hfetch := fetch_ok { t with pc := BitVec.ofNat 16 (s.i.toNat + r.val) } (by simp only [hpc]; omega)
  refine ⟨t, _, ht, hfetch, ?_⟩
  rw [joinBytes_toNat, hpc]
  have hhi := hstored r (Fin.le_def.mpr (by omega))
  have hlo := hstored q hqx
  rw [hq, ← Nat.add_assoc] at hlo
  exact congrArg₂ (fun hi lo : Byte => hi.toNat * 256 + lo.toNat) hhi hlo

end Sys2Proof.Machine
end

section
/-! PROOFS. The family of 41_display.md: the sprite XOR compositor and its collision detector (R101 to R107). -/

namespace Sys2Proof.Machine

/-! ### Drawings that differ in a set of cells -/

/-- From the drawing `d` to `d'` exactly the cells of `P` have been inverted, and a collision has been noted iff one of
them was on (R104). -/
structure Inverts (P : Fin 64 → Fin 32 → Prop) (d d' : Drawing) : Prop where
  covered : ∀ cx cy, P cx cy → cellOf d'.1 cx cy = !cellOf d.1 cx cy
  others : ∀ cx cy, ¬ P cx cy → cellOf d'.1 cx cy = cellOf d.1 cx cy
  collision : d'.2 = true ↔ d.2 = true ∨ ∃ cx cy, P cx cy ∧ cellOf d.1 cx cy = true

theorem Inverts.of_iff {P Q : Fin 64 → Fin 32 → Prop} {d d' : Drawing} (h : Inverts P d d')
    (hPQ : ∀ cx cy, Q cx cy ↔ P cx cy) : Inverts Q d d' := by
  have hQ : Q = P := funext fun cx => funext fun cy => propext (hPQ cx cy)
  exact hQ ▸ h

theorem Inverts.refl (d : Drawing) : Inverts (fun _ _ => False) d d :=
  ⟨fun _ _ h => h.elim, fun _ _ _ => rfl, by simp⟩

/-- Two drawings in a row that meet different cells invert the cells of both. -/
theorem Inverts.trans {P Q : Fin 64 → Fin 32 → Prop} {d e f : Drawing} (hP : Inverts P d e) (hQ : Inverts Q e f)
    (hdisj : ∀ cx cy, P cx cy → ¬ Q cx cy) : Inverts (fun cx cy => P cx cy ∨ Q cx cy) d f where
  covered cx cy h := by
    rcases h with h | h
    · rw [hQ.others cx cy (hdisj cx cy h), hP.covered cx cy h]
    · rw [hQ.covered cx cy h, hP.others cx cy fun h' => hdisj cx cy h' h]
  others cx cy h := by rw [hQ.others cx cy fun h' => h (.inr h'), hP.others cx cy fun h' => h (.inl h')]
  collision := by
    have hcell : (∃ cx cy, Q cx cy ∧ cellOf e.1 cx cy = true) ↔ ∃ cx cy, Q cx cy ∧ cellOf d.1 cx cy = true :=
      exists₂_congr fun cx cy => and_congr_right fun h => by rw [hP.others cx cy fun h' => hdisj cx cy h' h]
    rw [hQ.collision, hP.collision, hcell, or_assoc]
    simp only [or_and_right, exists_or]

/-! ### The loops of R101 -/

/-- Pixel `i` of row `j` is set and falls on the cell (R101, R102). -/
def PixelCovers (vx vy row : Byte) (j i : Nat) (cx : Fin 64) (cy : Fin 32) : Prop :=
  spriteBit row i = true ∧ cx = spriteColumn vx i ∧ cy = spriteRow vy j

theorem inverts_drawPixel (vx vy row : Byte) (j i : Nat) (d : Drawing) :
    Inverts (PixelCovers vx vy row j i) d (drawPixel vx vy row j d i) := by
  cases hbit : spriteBit row i with
  | false =>
    rw [drawPixel_clear vx vy row j d i hbit]
    exact (Inverts.refl d).of_iff fun cx cy => by simp [PixelCovers, hbit]
  | true =>
    rw [drawPixel_set vx vy row j d i hbit]
    refine ⟨fun cx cy h => ?covered, fun cx cy h => ?others, ?collision⟩
    case covered => rw [cellOf_flipCell, if_pos h.2]
    case others => rw [cellOf_flipCell, if_neg fun h' => h ⟨hbit, h'⟩]
    case collision => simp [PixelCovers, hbit]

/-- One of the first `m` pixels of row `j` is set and falls on the cell. -/
def RowCovers (vx vy row : Byte) (j m : Nat) (cx : Fin 64) (cy : Fin 32) : Prop :=
  ∃ i, i < m ∧ PixelCovers vx vy row j i cx cy

/-- The eight pixels of a row fall on different columns, though they wrap. -/
theorem spriteColumn_ne (vx : Byte) {i k : Nat} (hik : i < k) (hk : k < 8) : spriteColumn vx i ≠ spriteColumn vx k := by
  intro h
  have hval := congrArg Fin.val h
  simp only [spriteColumn, Fin.val_ofNat] at hval
  omega

/-- The inner loop, up to pixel `m`. -/
theorem inverts_foldl_drawPixel (vx vy row : Byte) (j : Nat) (d : Drawing) {m : Nat} (hm : m ≤ 8) :
    Inverts (RowCovers vx vy row j m) d ((List.range m).foldl (drawPixel vx vy row j) d) := by
  induction m with
  | zero => exact (Inverts.refl d).of_iff fun cx cy => by simp [RowCovers]
  | succ m ih =>
    rw [List.range_succ, List.foldl_append]
    refine ((ih (by omega)).trans (inverts_drawPixel vx vy row j m _) ?disjoint).of_iff fun cx cy => ?split
    case disjoint =>
      rintro cx cy ⟨i, hi, -, hx, -⟩ ⟨-, hx', -⟩
      exact spriteColumn_ne vx hi (by omega) (hx.symm.trans hx')
    case split => simp only [RowCovers, Nat.lt_succ_iff_lt_or_eq, or_and_right, exists_or, exists_eq_left]

theorem inverts_drawRow (vx vy row : Byte) (j : Nat) (d : Drawing) :
    Inverts (RowCovers vx vy row j 8) d (drawRow vx vy row j d) :=
  inverts_foldl_drawPixel vx vy row j d (le_refl 8)

/-- A set pixel of one of the rows, drawn from row `j` on, falls on the cell. -/
def RowsCover (vx vy : Byte) (j : Nat) (rows : List Byte) (cx : Fin 64) (cy : Fin 32) : Prop :=
  ∃ k, ∃ h : k < rows.length, RowCovers vx vy rows[k] (j + k) 8 cx cy

theorem rowsCover_cons (vx vy : Byte) (j : Nat) (row : Byte) (rows : List Byte) (cx : Fin 64) (cy : Fin 32) :
    RowsCover vx vy j (row :: rows) cx cy ↔ RowCovers vx vy row j 8 cx cy ∨ RowsCover vx vy (j + 1) rows cx cy := by
  constructor
  · rintro ⟨k, hk, h⟩
    cases k with
    | zero => exact .inl h
    | succ k => exact .inr ⟨k, by simpa using hk, by rwa [Nat.add_assoc, Nat.add_comm 1]⟩
  · rintro (h | ⟨k, hk, h⟩)
    · exact ⟨0, by simp, h⟩
    · exact ⟨k + 1, by simpa using hk, by rwa [Nat.add_assoc, Nat.add_comm 1] at h⟩

/-- Fewer than 33 rows fall on different rows of the screen, though they wrap. -/
theorem spriteRow_ne (vy : Byte) {j k : Nat} (hjk : j < k) (hk : k < 32) : spriteRow vy j ≠ spriteRow vy k := by
  intro h
  have hval := congrArg Fin.val h
  simp only [spriteRow, Fin.val_ofNat] at hval
  omega

/-- The outer loop: the rows from `j` on, as long as they do not wrap onto one another. -/
theorem inverts_drawRows (vx vy : Byte) {j : Nat} {rows : List Byte} (hj : j + rows.length ≤ 32) (d : Drawing) :
    Inverts (RowsCover vx vy j rows) d (drawRows vx vy j rows d) := by
  induction rows generalizing j d with
  | nil => exact (Inverts.refl d).of_iff fun cx cy => by simp [RowsCover]
  | cons row rows ih =>
    rw [List.length_cons] at hj
    refine ((inverts_drawRow vx vy row j d).trans (ih (by omega) _) ?disjoint).of_iff (rowsCover_cons vx vy j row rows)
    rintro cx cy ⟨-, -, -, -, hy⟩ ⟨k, hk, -, -, -, -, hy'⟩
    exact spriteRow_ne vy (by omega) (by omega) (hy.symm.trans hy')

/-! ### The draw -/

/-- The `n` sprite rows at I. -/
def spriteRows (s : State) (n : Nat) : List Byte := (blockAddrs s.i.toNat n).map s.byteAt

theorem length_spriteRows (s : State) (n : Nat) : (spriteRows s n).length = n := by simp [spriteRows, blockAddrs]

theorem pixelCovers_iff (vx vy row : Byte) (j : Nat) {i : Nat} (hi : i < 8) (cx : Fin 64) (cy : Fin 32) :
    PixelCovers vx vy row j i cx cy ↔
      row.getLsbD (7 - i) = true ∧ (vx.toNat + i) % 64 = cx.val ∧ (vy.toNat + j) % 32 = cy.val := by
  have hbit : spriteBit row i = row.getLsbD (7 - i) := by simp [spriteBit, BitVec.getMsbD, hi]
  simp only [PixelCovers, hbit, spriteColumn, spriteRow, Fin.ext_iff, Fin.val_ofNat, eq_comm]

/-- The loops of R101 cover the cells that the rule covers. -/
theorem spriteCovers_iff_rowsCover (s : State) (x y : Reg) (n : Nat) (cx : Fin 64) (cy : Fin 32) :
    SpriteCovers s x y n cx cy ↔ RowsCover (s.reg x) (s.reg y) 0 (spriteRows s n) cx cy := by
  have hrow (j : Nat) (hj : j < (spriteRows s n).length) : (spriteRows s n)[j] = s.byteAt (s.i.toNat + j) := by
    simp [spriteRows, blockAddrs]
  constructor
  · rintro ⟨j, hj, i, hi, h⟩
    have hj' : j < (spriteRows s n).length := by rwa [length_spriteRows]
    exact ⟨j, hj', i, hi, by rwa [pixelCovers_iff _ _ _ _ hi, hrow, Nat.zero_add]⟩
  · rintro ⟨j, hj, i, hi, h⟩
    rw [pixelCovers_iff _ _ _ _ hi, hrow, Nat.zero_add] at h
    exact ⟨j, by rwa [length_spriteRows] at hj, i, hi, h⟩

/-- What `Dxyn` draws: the screen it leaves and whether there was a collision. -/
def spriteDrawing (s : State) (x y : Reg) (n : Nat) : Drawing :=
  drawRows (s.reg x) (s.reg y) 0 (spriteRows s n) (s.fb, false)

theorem inverts_spriteDrawing (s : State) (x y : Reg) (n : Nibble) :
    Inverts (SpriteCovers s x y n.toNat) (s.fb, false) (spriteDrawing s x y n.toNat) := by
  have hlen : 0 + (spriteRows s n.toNat).length ≤ 32 := by rw [length_spriteRows]; omega
  exact (inverts_drawRows _ _ hlen _).of_iff (spriteCovers_iff_rowsCover s x y n.toNat)

/-- `Dxyn` where its sprite lies in memory (R101 to R105). -/
theorem execDrw_inside (x y : Reg) {n : Nibble} {s : State} (h : n.toNat = 0 ∨ s.i.toNat + n.toNat ≤ 0x1000) :
    execDrw x y n s =
      .next ({ s with fb := (spriteDrawing s x y n.toNat).1 }.setReg 15 (flagByte (spriteDrawing s x y n.toNat).2)) := by
  simp only [execDrw, readBlock_ok s h, spriteDrawing, spriteRows]

theorem execDrw_beyond (x y : Reg) {n : Nibble} {s : State} (h : n.toNat ≠ 0) (h' : 0x1000 < s.i.toNat + n.toNat) :
    execDrw x y n s = raise s (.memoryOutOfBounds (max s.i.toNat 0x1000) .read) := by
  simp only [execDrw, readBlock_error s h h']

theorem sameBut_fb_setReg (s : State) (fb : Framebuffer) (x : Reg) (b : Byte) :
    SameBut [.regs, .fb] s ({ s with fb := fb }.setReg x b) :=
  ((sameBut_fb s fb).trans (sameBut_setReg _ x b)).mono (by decide)

theorem decode_drw (x y : Reg) (n : Nibble) :
    decode (0xD000 ||| xBits x ||| yBits y ||| n.setWidth 16) = .instr (.drw x y n) := by
  rw [show (0xD000 : Word) = encXYN 0xD 0 0 0 from rfl, encXYN_or_operands]
  exact decodeOfEncode (.drw x y n)

theorem flagByte_eq_one_iff (c : Bool) : flagByte c = 1 ↔ c = true := by cases c <;> decide

theorem flagByte_eq_zero_iff (c : Bool) : flagByte c = 0 ↔ ¬ c = true := by cases c <;> decide

/-- The collision that `Dxyn` reports (R105). -/
theorem spriteDrawing_collision_iff (s : State) (x y : Reg) (n : Nibble) :
    (spriteDrawing s x y n.toNat).2 = true ↔ ∃ cx cy, SpriteCovers s x y n.toNat cx cy ∧ s.cell cx cy = true := by
  simpa [State.cell] using (inverts_spriteDrawing s x y n).collision

/-- Settles O21: the two loops invert the cells the sprite covers and note a collision iff one of them was on
(`inverts_spriteDrawing`), since within a row the columns differ and the at most fifteen rows differ. -/
theorem drawXorsTheSprite : Obligations.DrawXorsTheSprite := by
  refine fun x y n s => ⟨decode_drw x y n, fun h => ⟨_, execDrw_inside x y h, ?_⟩⟩
  have hinv := inverts_spriteDrawing s x y n
  refine ⟨fun cx cy => ⟨hinv.covered cx cy, hinv.others cx cy⟩, fun hc => ?collision, fun hc => ?noCollision,
    fun r hr => State.reg_setReg_of_ne _ hr _, sameBut_fb_setReg s _ _ _⟩
  case collision => rwa [State.reg_setReg_same, flagByte_eq_one_iff, spriteDrawing_collision_iff]
  case noCollision => rwa [State.reg_setReg_same, flagByte_eq_zero_iff, spriteDrawing_collision_iff]

/-- Which cells a sprite covers depends on Vx, Vy, I and memory alone. -/
theorem spriteCovers_congr {s t : State} {x y : Reg} (hx : t.reg x = s.reg x) (hy : t.reg y = s.reg y) (hi : t.i = s.i)
    (hmem : ∀ a, t.byteAt a = s.byteAt a) (n : Nat) (cx : Fin 64) (cy : Fin 32) :
    SpriteCovers t x y n cx cy ↔ SpriteCovers s x y n cx cy := by
  simp only [SpriteCovers, hx, hy, hi, hmem]

/-- Settles O22: a draw leaves Vx, Vy, I and memory, so the second one inverts the same cells (`drawXorsTheSprite`). -/
theorem drawTwiceRestoresTheScreen : Obligations.DrawTwiceRestoresTheScreen := by
  intro x y n s hx hy h
  obtain ⟨t, ht, htcell, -, -, htreg, htframe⟩ := (drawXorsTheSprite x y n s).2 h
  have hi : t.i = s.i := htframe .i (by decide)
  have hmem : ∀ a, t.byteAt a = s.byteAt a := htframe .mem (by decide)
  obtain ⟨u, hu, hucell, hu1, hu0, -, -⟩ := (drawXorsTheSprite x y n t).2 (by rwa [hi])
  simp only [spriteCovers_congr (htreg x hx) (htreg y hy) hi hmem] at hucell hu1 hu0
  refine ⟨t, u, ht, hu, fun cx cy => ?restored, ⟨fun h1 => ?_, hu1⟩, ⟨fun h0 hc => ?_, hu0⟩⟩
  case restored =>
    by_cases hc : SpriteCovers s x y n.toNat cx cy
    · rw [(hucell cx cy).1 hc, (htcell cx cy).1 hc, Bool.not_not]
    · rw [(hucell cx cy).2 hc, (htcell cx cy).2 hc]
  · by_contra hc
    exact absurd (h1.symm.trans (hu0 hc)) (by decide)
  · exact absurd (h0.symm.trans (hu1 hc)) (by decide)

end Sys2Proof.Machine
end

section
/-! PROOFS. A block transfer beyond the top of memory (20_memory.md R51, 41_display.md R106, 44_index_memory.md R175). -/

namespace Sys2Proof.Machine

/-- Settles O43: each of the four instructions checks its block before it moves anything, and the address it raises is
the block's first invalid one (`firstInvalid_max`). -/
theorem blockBeyondMemoryRaises : Obligations.BlockBeyondMemoryRaises := by
  intro i s len kind hinstr hlen hbeyond
  refine ⟨max s.i.toNat 0x1000, firstInvalid_max hlen hbeyond, ?_⟩
  rcases hinstr with ⟨x, y, n, rfl, rfl, rfl⟩ | ⟨x, rfl, rfl, rfl⟩ | ⟨x, rfl, rfl, rfl⟩ | ⟨x, rfl, rfl, rfl⟩
  · exact execDrw_beyond x y hlen hbeyond
  · exact execLdBVx_beyond x (by omega)
  · exact execStoreVx_beyond hbeyond
  · exact execLoadVx_beyond hbeyond

end Sys2Proof.Machine
end

section
/-! PROOFS. The family of 43_alu.md: the bitwise operations and the operations with a flag (R144 to R156). -/

namespace Sys2Proof.Machine

/-- Settles O33: each arm is one register write, of the bitwise operation. -/
theorem logicalOperations : Obligations.LogicalOperations := fun x _ s =>
  ⟨⟨_, _, rfl, setsReg_setReg s x _, fun _ _ => BitVec.getLsbD_or⟩,
    ⟨_, _, rfl, setsReg_setReg s x _, fun _ _ => BitVec.getLsbD_and⟩,
    ⟨_, _, rfl, setsReg_setReg s x _, fun _ _ => BitVec.getLsbD_xor⟩⟩

/-- A result and a flag written as the operation computes them have the whole effect that the rule gives with the values
it writes. -/
theorem setsRegFlag_of_eq {s : State} {x : Reg} {b b' f f' : Byte} (hb : b = b') (hf : f = f') :
    SetsRegFlag x b' f' s (s.setRegFlag x b f) := hb ▸ hf ▸ setsRegFlag_setRegFlag s x b f

theorem carryFlag_eq_ite (a b : Byte) : carryFlag a b = if 255 < a.toNat + b.toNat then 1 else 0 := by
  simp [carryFlag, flagByte]

/-- The difference as R148 writes it, without a truncated subtraction. -/
theorem sub_eq_ofNat (a b : Byte) : a - b = BitVec.ofNat 8 ((256 + a.toNat - b.toNat) % 256) := by
  apply BitVec.eq_of_toNat_eq
  have := b.isLt
  rw [BitVec.toNat_sub, BitVec.toNat_ofNat]
  omega

theorem ushiftRight_one_eq_ofNat (a : Byte) : a >>> 1 = BitVec.ofNat 8 (a.toNat / 2) := by
  apply BitVec.eq_of_toNat_eq
  have := a.isLt
  rw [BitVec.toNat_ushiftRight, BitVec.toNat_ofNat, Nat.shiftRight_eq_div_pow]
  omega

theorem shiftLeft_one_eq_ofNat (a : Byte) : a <<< 1 = BitVec.ofNat 8 (a.toNat * 2 % 256) := by
  apply BitVec.eq_of_toNat_eq
  rw [BitVec.toNat_shiftLeft, BitVec.toNat_ofNat, Nat.shiftLeft_eq]
  omega

theorem shiftRightFlag_eq_ofNat (a : Byte) : shiftRightFlag a = BitVec.ofNat 8 (a.toNat % 2) := by
  apply BitVec.eq_of_toNat_eq
  rw [shiftRightFlag, BitVec.toNat_and, BitVec.toNat_ofNat, show (1 : Byte).toNat = 1 from rfl, Nat.and_one_is_mod]
  omega

theorem shiftLeftFlag_eq_ofNat (a : Byte) : shiftLeftFlag a = BitVec.ofNat 8 (a.toNat / 128) := by
  apply BitVec.eq_of_toNat_eq
  have := a.isLt
  rw [shiftLeftFlag, BitVec.toNat_ushiftRight, BitVec.toNat_ofNat, Nat.shiftRight_eq_div_pow]
  omega

/-- Settles O34: the arm writes the 8-bit sum and its carry. -/
theorem addRegistersCarries : Obligations.AddRegistersCarries := fun x y s =>
  ⟨_, rfl, setsRegFlag_of_eq (ofNat_toNat_add_mod (s.reg x) (s.reg y)).symm (carryFlag_eq_ite _ _)⟩

/-- Settles O35: each arm writes the 8-bit difference and the no-borrow flag. -/
theorem subtractionsBorrow : Obligations.SubtractionsBorrow := fun x y s =>
  ⟨⟨_, rfl, setsRegFlag_of_eq (sub_eq_ofNat (s.reg x) (s.reg y)) rfl⟩,
    ⟨_, rfl, setsRegFlag_of_eq (sub_eq_ofNat (s.reg y) (s.reg x)) rfl⟩⟩

/-- Settles O36: each arm writes the shifted Vx and the bit moved out. -/
theorem shiftsMoveOneBitOut : Obligations.ShiftsMoveOneBitOut := fun x _ s =>
  ⟨⟨_, rfl, setsRegFlag_of_eq (ushiftRight_one_eq_ofNat (s.reg x)) (shiftRightFlag_eq_ofNat (s.reg x))⟩,
    ⟨_, rfl, setsRegFlag_of_eq (shiftLeft_one_eq_ofNat (s.reg x)) (shiftLeftFlag_eq_ofNat (s.reg x))⟩⟩

/-- Settles O37: the arm writes the masked byte and counts the draw; a mask lets no bit through that it does not have. -/
theorem randomByteIsMasked : Obligations.RandomByteIsMasked := by
  refine fun x nn s => ⟨_, rfl, setsReg_setReg s x _, rfl, ?masked⟩
  case masked =>
    rw [State.reg_eq_of_v (State.nextDraw_v _), State.reg_setReg_same, BitVec.toNat_and]
    exact Nat.and_le_right

end Sys2Proof.Machine
end

section
/-! PROOFS. The family of 42_control_flow.md: the indexed jump (R129), and a return after a call (R121, R123). -/

namespace Sys2Proof.Machine

theorem addrOperand_toNat (nnn : Addr) : (addrOperand nnn).toNat = nnn.toNat := by
  simp only [addrOperand, BitVec.toNat_setWidth]
  omega

/-- The target of `Bnnn` fits 16 bits (R129). -/
theorem indexedTarget_toNat (s : State) (nnn : Addr) :
    (indexedTarget s nnn).toNat = nnn.toNat + (s.reg 0).toNat := by
  rw [indexedTarget, BitVec.toNat_add, addrOperand_toNat, byteOperand_toNat]
  omega

theorem decode_jpV0 (nnn : Addr) : decode (0xB000 ||| nnn.setWidth 16) = .instr (.jpV0 nnn) := by
  rw [show (0xB000 : Word) = encA 0xB 0 from rfl, encA_or_nnn]
  exact decodeOfEncode (.jpV0 nnn)

/-- Settles O29: `Bnnn` is a jump (`setsPc_jump`) to a sum that fits. -/
theorem indexedJumpAddsV0 : Obligations.IndexedJumpAddsV0 := fun nnn s =>
  ⟨decode_jpV0 nnn, _, rfl, indexedTarget_toNat s nnn, sameBut_jump s _⟩

/-- Settles O26: the call pushes PC in the slot that the return then pops. -/
theorem returnAfterCallRestoresPc : Obligations.ReturnAfterCallRestoresPc := by
  intro nnn s w hsp
  obtain ⟨t, ht, hslot, -, htsp, -, -⟩ := (callPushesTheReturnAddress nnn s).2.1 ⟨s.sp.val, hsp⟩ rfl
  obtain ⟨u, hu, hupc, husp, -⟩ := (returnPopsTheStack.2 { t with pc := w }).1 ⟨s.sp.val, hsp⟩ htsp
  exact ⟨t, u, ht, hu, hupc.trans hslot, Fin.ext husp⟩

end Sys2Proof.Machine
end

section
/-! PROOFS. The family of 45_keypad_timers.md: the key skips (R190 to R192) and the key wait (R194). -/

namespace Sys2Proof.Machine

/-- A byte is above every key number or is one (R192). -/
theorem toNat_cases_key (b : Byte) : 0xF < b.toNat ∨ ∃ k : Key, b.toNat = k.val := by
  rcases Nat.lt_or_ge 0xF b.toNat with h | h
  · exact .inl h
  · exact .inr ⟨⟨b.toNat, by omega⟩, rfl⟩

theorem execSkp_of_key {x : Reg} {s : State} {k : Key} (h : (s.reg x).toNat = k.val) :
    execSkp x s = .next (skipIf (s.keyDown k) s) := by
  simp only [execSkp, keyOperand_ok (h ▸ k.isLt : (s.reg x).toNat < 16), h]

theorem execSknp_of_key {x : Reg} {s : State} {k : Key} (h : (s.reg x).toNat = k.val) :
    execSknp x s = .next (skipIf (!s.keyDown k) s) := by
  simp only [execSknp, keyOperand_ok (h ▸ k.isLt : (s.reg x).toNat < 16), h]

theorem execSkp_beyond {x : Reg} {s : State} (h : 0xF < (s.reg x).toNat) :
    execSkp x s = raise s (.keyOutOfRange (s.reg x)) := by
  simp only [execSkp, keyOperand_error (show ¬ (s.reg x).toNat < 16 by omega)]

theorem execSknp_beyond {x : Reg} {s : State} (h : 0xF < (s.reg x).toNat) :
    execSknp x s = raise s (.keyOutOfRange (s.reg x)) := by
  simp only [execSknp, keyOperand_error (show ¬ (s.reg x).toNat < 16 by omega)]

/-- Settles O46: with a key number in Vx both instructions are a skip, on the key down and on the key up; with another
value both raise before they write anything. -/
theorem keySkips : Obligations.KeySkips := by
  refine fun x s => ⟨fun k hk => ⟨⟨_, execSkp_of_key hk, setsPc_skipIf _ s⟩, ⟨_, execSknp_of_key hk, ?up⟩⟩,
    fun h => ⟨execSkp_beyond h, execSknp_beyond h⟩⟩
  case up =>
    rw [← ite_not]
    exact setsPc_skipIf_iff (by simp) s

theorem execLdVxK_of_none {s : State} (h : s.anyPressed = none) (x : Reg) :
    execLdVxK x s = .next (s.jump s.instrAddr) := by simp only [execLdVxK, h]

/-- Settles O48: which of its two forms `Fx0A` takes is settled by the lowest key down (`anyPressedIsTheLowestKey`). -/
theorem keyWaitWaitsOrTakesAKey : Obligations.KeyWaitWaitsOrTakesAKey := by
  intro x s
  obtain ⟨hnone, hsome, -⟩ := anyPressedIsTheLowestKey s
  exact ⟨fun h => ⟨_, execLdVxK_of_none (hnone.mpr h) x, setsPc_jump s _⟩,
    fun k hk hlow => ⟨_, execLdVxK_of_pressed ((hsome k).mpr ⟨hk, hlow⟩) x, setsReg_setReg s x _⟩⟩

end Sys2Proof.Machine
end

section
/-! PROOFS. What an instruction can do (30_encoding.md R84): it answers a next state, in which it has either raised or
completed, and a completed instruction changes only what the rules list for it (10_state.md R23 to R34, 20_memory.md
R53). -/

namespace Sys2Proof.Machine

/-! ### Completing and raising -/

/-- What a completed instruction can leave in the PC, `s.pc` being the advanced PC (42_control_flow.md R120 to R130,
45_keypad_timers.md R194). -/
inductive PcTarget (s : State) : Word → Prop where
  | advanced : PcTarget s s.pc
  | skipped : PcTarget s (s.pc + 2)
  | rewound : PcTarget s s.instrAddr
  | popped (k : Fin 16) : PcTarget s s.stack[k]
  | jumped {w : Word} (h : w.toNat ≤ 0x10FE) : PcTarget s w

/-- From `s` to `t` the instruction has completed: it has changed only what is listed for it, memory is canonical if it
was, PC has one of the values that control transfer can give it, and a stack slot is as it was or holds the PC. -/
structure Completes (i : Instr) (s t : State) : Prop where
  regs : ∀ r, r ∉ regsWritten i → t.reg r = s.reg r
  mem : ∀ a, a ∉ storeAddrs s i → t.byteAt a = s.byteAt a
  parts : ∀ p, p ∉ partsWritten i → p ≠ .mem → p ≠ .regs → p.same s t
  canonical : s.MemCanonical → t.MemCanonical
  pc : PcTarget s t.pc
  stack : ∀ k : Fin 16, t.stack[k] = s.stack[k] ∨ t.stack[k] = s.pc

/-- The states that an instruction can leave: it has raised a fatal error, or completed. -/
inductive ExecResult (i : Instr) (s : State) : State → Prop where
  | raised (f : Fault) : ExecResult i s (s.takeFault s.instrAddr f)
  | completed {t : State} (h : Completes i s t) : ExecResult i s t

/-- The parts that no instruction's list of `partsWritten` holds: registers and memory have lists of their own, and the
keypad and the fault record are written by no instruction's rule. -/
theorem notMem_partsWritten (i : Instr) : ∀ p ∈ [Part.mem, .regs, .keys, .fault], p ∉ partsWritten i := by
  cases i <;> simp [partsWritten]

theorem mem_blockAddrs {base len a : Nat} : a ∈ blockAddrs base len ↔ base ≤ a ∧ a < base + len := by
  simp only [blockAddrs, List.mem_map, List.mem_range]
  exact ⟨by rintro ⟨k, hk, rfl⟩; omega, fun h => ⟨a - base, by omega, by omega⟩⟩

/-! ### Which updates complete an instruction -/

/-- An update within the listed parts that leaves registers and memory. -/
theorem Completes.of_parts {i : Instr} {s t : State} {ps : List Part} (hframe : SameBut ps s t)
    (hps : ∀ p ∈ ps, p ∈ partsWritten i) (hmem : t.mem = s.mem) (hpc : PcTarget s t.pc)
    (hstack : ∀ k : Fin 16, t.stack[k] = s.stack[k] ∨ t.stack[k] = s.pc) : Completes i s t where
  regs r _ := hframe .regs (fun h => notMem_partsWritten i .regs (by decide) (hps _ h)) r
  mem a _ := State.byteAt_eq_of_mem hmem a
  parts p hp _ _ := hframe p fun h => hp (hps p h)
  canonical hm := by rwa [State.MemCanonical, hmem]
  pc := hpc
  stack := hstack

/-- An update within registers and the listed parts that leaves the PC and the stack. -/
theorem Completes.of_regs {i : Instr} {s t : State} {ps : List Part} (hframe : SameBut (.regs :: ps) s t)
    (hps : ∀ p ∈ ps, p ∈ partsWritten i) (hregs : ∀ r, r ∉ regsWritten i → t.reg r = s.reg r) (hmem : t.mem = s.mem)
    (hpc : t.pc = s.pc) (hstack : t.stack = s.stack) : Completes i s t where
  regs := hregs
  mem a _ := State.byteAt_eq_of_mem hmem a
  parts p hp _ hr := hframe p fun h => (List.mem_cons.mp h).elim hr fun h => hp (hps p h)
  canonical hm := by rwa [State.MemCanonical, hmem]
  pc := hpc ▸ .advanced
  stack k := .inl (by rw [hstack])

/-- One register write, of a listed register. -/
theorem Completes.of_setReg {i : Instr} {s : State} {x : Reg} (hx : x ∈ regsWritten i) (b : Byte) :
    Completes i s (s.setReg x b) :=
  .of_regs (sameBut_setReg s x b) (fun _ h => nomatch h)
    (fun _ hr => State.reg_setReg_of_ne s (ne_of_mem_of_not_mem hx hr).symm b) rfl rfl rfl

/-- A result and a flag, where Vx and VF are listed. -/
theorem Completes.of_setRegFlag {i : Instr} {s : State} {x : Reg} (hregs : regsWritten i = [x, 15]) (b f : Byte) :
    Completes i s (s.setRegFlag x b f) := by
  refine .of_regs (sameBut_setRegFlag s x b f) (fun _ h => nomatch h) (fun r hr => ?_) rfl rfl rfl
  simp only [hregs, List.mem_cons, List.not_mem_nil, or_false, not_or] at hr
  exact State.reg_setRegFlag_of_ne s hr.1 hr.2 b f

/-- A jump to a possible target, where the PC is listed. -/
theorem Completes.of_jump {i : Instr} {s : State} {w : Word} (hpc : .pc ∈ partsWritten i) (hw : PcTarget s w) :
    Completes i s (s.jump w) :=
  .of_parts (sameBut_jump s w) (fun _ hp => List.mem_singleton.mp hp ▸ hpc) rfl hw fun _ => .inl rfl

/-- A skip, where the PC is listed. -/
theorem Completes.of_skipIf {i : Instr} {s : State} (hpc : .pc ∈ partsWritten i) (c : Bool) :
    Completes i s (skipIf c s) := by
  rw [skipIf_eq]
  cases c with
  | false => exact .of_jump hpc .advanced
  | true => exact .of_jump hpc .skipped

/-- A block write, where the block's addresses are listed. -/
theorem Completes.of_writeBlock {i : Instr} {s t : State} {base : Nat} {bs : List Byte}
    (hw : s.writeBlock base bs = .ok t) (haddrs : storeAddrs s i = blockAddrs base bs.length) : Completes i s t := by
  obtain ⟨rfl, hm⟩ := writeBlock_cases hw
  refine ⟨fun _ _ => rfl, fun a ha => ?_, fun p _ hmem _ => sameBut_mem s _ p (by simpa using hmem), hm,
    .advanced, fun _ => .inl rfl⟩
  rw [haddrs, mem_blockAddrs] at ha
  exact Memory.read_writeBytes_outside s.mem (by omega)

/-! ### Every instruction -/

/-- An instruction that answers the state it raised in, or a state it completed in, has a result. -/
theorem execResult_of_raise {i : Instr} {s : State} {f : Fault} (h : exec i s = raise s f) :
    ∃ t, exec i s = .next t ∧ ExecResult i s t := ⟨_, h, .raised f⟩

theorem execResult_of_completes {i : Instr} {s t : State} (he : exec i s = .next t) (h : Completes i s t) :
    ∃ t, exec i s = .next t ∧ ExecResult i s t := ⟨t, he, .completed h⟩

theorem execResult_ret (s : State) : ∃ t, exec .ret s = .next t ∧ ExecResult .ret s t := by
  rcases Nat.eq_zero_or_pos s.sp.val with h | h
  · exact execResult_of_raise (execRet_empty h)
  · have hk : s.sp.val = (⟨s.sp.val - 1, by omega⟩ : Fin 16).val + 1 := by simp only; omega
    exact execResult_of_completes (execRet_nonempty hk)
      (.of_parts (sameBut_sp_jump s _ _) (fun _ hp => hp) rfl (.popped _) fun _ => .inl rfl)

/-- The address operand of a jump or call is a possible target. -/
theorem pcTarget_addrOperand (s : State) (nnn : Addr) : PcTarget s (addrOperand nnn) :=
  .jumped (by rw [addrOperand_toNat]; omega)

/-- The target of `Bnnn` is at most 0xFFF + 0xFF (R129). -/
theorem pcTarget_indexedTarget (s : State) (nnn : Addr) : PcTarget s (indexedTarget s nnn) :=
  .jumped (by rw [indexedTarget_toNat]; omega)

theorem execResult_call (nnn : Addr) (s : State) :
    ∃ t, exec (.call nnn) s = .next t ∧ ExecResult (.call nnn) s t := by
  by_cases h : s.sp.val = 16
  · exact execResult_of_raise (execCall_full h nnn)
  · have hk : s.sp.val = (⟨s.sp.val, by omega⟩ : Fin 16).val := rfl
    refine execResult_of_completes (execCall_free hk nnn)
      (.of_parts (sameBut_stack_sp_jump s _ _ _) (fun _ hp => hp) rfl (pcTarget_addrOperand s nnn) fun j => ?slots)
    case slots =>
      by_cases hj : j.val = s.sp.val <;> simp [hj, eq_comm]

theorem execResult_skp (x : Reg) (s : State) : ∃ t, exec (.skp x) s = .next t ∧ ExecResult (.skp x) s t := by
  rcases toNat_cases_key (s.reg x) with h | ⟨k, hk⟩
  · exact execResult_of_raise (execSkp_beyond h)
  · exact execResult_of_completes (execSkp_of_key hk) (.of_skipIf (List.mem_singleton_self _) _)

theorem execResult_sknp (x : Reg) (s : State) : ∃ t, exec (.sknp x) s = .next t ∧ ExecResult (.sknp x) s t := by
  rcases toNat_cases_key (s.reg x) with h | ⟨k, hk⟩
  · exact execResult_of_raise (execSknp_beyond h)
  · exact execResult_of_completes (execSknp_of_key hk) (.of_skipIf (List.mem_singleton_self _) _)

theorem execResult_drw (x y : Reg) (n : Nibble) (s : State) :
    ∃ t, exec (.drw x y n) s = .next t ∧ ExecResult (.drw x y n) s t := by
  by_cases h : n.toNat = 0 ∨ s.i.toNat + n.toNat ≤ 0x1000
  · refine execResult_of_completes (execDrw_inside x y h)
      (.of_regs (sameBut_fb_setReg s _ _ _) (fun _ hp => hp) (fun r hr => ?_) rfl rfl rfl)
    exact State.reg_setReg_of_ne _ (by simpa [regsWritten] using hr) _
  · exact execResult_of_raise (execDrw_beyond x y (by omega) (by omega))

theorem execResult_ldVxK (x : Reg) (s : State) : ∃ t, exec (.ldVxK x) s = .next t ∧ ExecResult (.ldVxK x) s t := by
  cases h : s.anyPressed with
  | none => exact execResult_of_completes (execLdVxK_of_none h x) (.of_jump (List.mem_singleton_self _) .rewound)
  | some k => exact execResult_of_completes (execLdVxK_of_pressed h x) (.of_setReg (List.mem_singleton_self _) _)

theorem execResult_ldBVx (x : Reg) (s : State) : ∃ t, exec (.ldBVx x) s = .next t ∧ ExecResult (.ldBVx x) s t := by
  cases h : s.writeBlock s.i.toNat (bcdDigits (s.reg x)) with
  | error f => exact execResult_of_raise (f := f) (by simp only [exec, execLdBVx, h])
  | ok t => exact execResult_of_completes (execLdBVx_of_ok h) (.of_writeBlock h rfl)

theorem execResult_storeVx (x : Reg) (s : State) :
    ∃ t, exec (.storeVx x) s = .next t ∧ ExecResult (.storeVx x) s t := by
  cases h : s.writeBlock s.i.toNat (regsUpTo s x) with
  | error f => exact execResult_of_raise (f := f) (by simp only [exec, execStoreVx, h])
  | ok t => exact execResult_of_completes (execStoreVx_of_ok h) (.of_writeBlock h (by rw [length_regsUpTo]; rfl))

theorem execResult_loadVx (x : Reg) (s : State) :
    ∃ t, exec (.loadVx x) s = .next t ∧ ExecResult (.loadVx x) s t := by
  by_cases h : s.i.toNat + x.val ≤ 0xFFF
  · have hframe := sameBut_setRegsFrom s 0 ((blockAddrs s.i.toNat (x.val + 1)).map s.byteAt)
    refine execResult_of_completes (execLoadVx_inside h) (.of_regs hframe (fun _ hp => nomatch hp) (fun r hr => ?kept)
      (by rw [setRegsFrom_eq]) (hframe .pc (by decide)) (hframe .stack (by decide)))
    case kept =>
      have hr' : ¬ r ≤ x := by simpa [regsWritten] using hr
      rw [reg_setRegsFrom_blockAddrs, if_neg hr']
  · exact execResult_of_raise (execLoadVx_beyond (by omega))

theorem execResult_rnd (x : Reg) (nn : Byte) (s : State) :
    ∃ t, exec (.rnd x nn) s = .next t ∧ ExecResult (.rnd x nn) s t := by
  have hframe := (sameBut_setReg s x (s.randByte &&& nn)).trans (sameBut_nextDraw _)
  refine execResult_of_completes rfl (.of_regs hframe (fun _ h => h) (fun r hr => ?_) rfl rfl rfl)
  exact State.reg_setReg_of_ne s (by simpa [regsWritten] using hr) _

/-- What an instruction can do: it answers a next state, in which it has raised or completed. -/
theorem exec_result (i : Instr) (s : State) : ∃ t, exec i s = .next t ∧ ExecResult i s t := by
  cases i with
  | cls => exact execResult_of_completes rfl (.of_parts (sameBut_fb s _) (fun _ h => h) rfl .advanced fun _ => .inl rfl)
  | ret => exact execResult_ret s
  | call nnn => exact execResult_call nnn s
  | jp nnn => exact execResult_of_completes rfl (.of_jump (List.mem_singleton_self _) (pcTarget_addrOperand s nnn))
  | jpV0 nnn => exact execResult_of_completes rfl (.of_jump (List.mem_singleton_self _) (pcTarget_indexedTarget s nnn))
  | seImm | sneImm | seReg | sneReg =>
    exact execResult_of_completes rfl (.of_skipIf (List.mem_singleton_self _) _)
  | ldImm | addImm | ldReg | orReg | andReg | xorReg | ldVxDt =>
    exact execResult_of_completes rfl (.of_setReg (List.mem_singleton_self _) _)
  | addReg | sub | shr | subn | shl => exact execResult_of_completes rfl (.of_setRegFlag rfl _ _)
  | rnd x nn => exact execResult_rnd x nn s
  | drw x y n => exact execResult_drw x y n s
  | skp x => exact execResult_skp x s
  | sknp x => exact execResult_sknp x s
  | ldVxK x => exact execResult_ldVxK x s
  | ldI | addIVx | ldFVx =>
    exact execResult_of_completes rfl (.of_parts (sameBut_setI s _) (fun _ h => h) rfl .advanced fun _ => .inl rfl)
  | ldDtVx x =>
    exact execResult_of_completes rfl (.of_parts (sameBut_setDt s _) (fun _ h => h) rfl .advanced fun _ => .inl rfl)
  | ldStVx x =>
    exact execResult_of_completes rfl (.of_parts (sameBut_setSt s _) (fun _ h => h) rfl .advanced fun _ => .inl rfl)
  | ldBVx x => exact execResult_ldBVx x s
  | storeVx x => exact execResult_storeVx x s
  | loadVx x => exact execResult_loadVx x s

theorem execResult_of_exec {i : Instr} {s t : State} (h : exec i s = .next t) : ExecResult i s t := by
  obtain ⟨u, hu, hres⟩ := exec_result i s
  rw [h] at hu
  cases hu
  exact hres

/-! ### The frames -/

/-- A completed instruction leaves the fault record as it was. -/
theorem Completes.fault_eq {i : Instr} {s t : State} (h : Completes i s t) : t.fault = s.fault :=
  h.parts .fault (notMem_partsWritten i .fault (by decide)) (by decide) (by decide)

theorem Completes.keyDown_eq {i : Instr} {s t : State} (h : Completes i s t) : ∀ k, t.keyDown k = s.keyDown k :=
  h.parts .keys (notMem_partsWritten i .keys (by decide)) (by decide) (by decide)

/-- Settles O16: a raise writes no register, and a completed instruction only the listed ones. -/
theorem onlyListedRegistersChange : Obligations.OnlyListedRegistersChange := by
  intro i s t h r hr
  cases execResult_of_exec h with
  | raised f => rfl
  | completed hc => exact hc.regs r hr

/-- Settles O17: a raise writes no memory, and a completed instruction only the listed addresses. -/
theorem onlyStoresChangeMemory : Obligations.OnlyStoresChangeMemory := by
  intro i s t h a ha
  cases execResult_of_exec h with
  | raised f => rfl
  | completed hc => exact hc.mem a ha

/-- Settles O18: an instruction that leaves no error recorded has completed. -/
theorem onlyListedPartsChange : Obligations.OnlyListedPartsChange := by
  intro i s t _ h ht p hp hmem hregs
  cases execResult_of_exec h with
  | raised f => exact absurd ht (Option.some_ne_none f)
  | completed hc => exact hc.parts p hp hmem hregs

end Sys2Proof.Machine
end

section
/-! PROOFS. What a cycle can do (30_encoding.md R80 to R85; 60_exceptions.md R210 to R223), and what it leaves alone. -/

namespace Sys2Proof.Machine

/-! ### The cases of a cycle -/

/-- The next states and outputs that a cycle can answer. -/
inductive CycleAnswer (s : State) : State → CycleResult → Prop where
  /-- The machine had faulted before (R212). -/
  | stuck {f : Fault} (h : s.fault = some f) : CycleAnswer s s ⟨.fault f, false⟩
  /-- The fetch or the instruction raised, and the cycle is undone (R212, R221). -/
  | undone (h : s.fault = none) (f : Fault) : CycleAnswer s { s with fault := some f } ⟨.fault f, false⟩
  /-- An unknown word (R218). -/
  | unknown {op : Word} (h : s.fault = none) (hf : s.fetch = .ok op) (hd : decode op = .unknown op) :
    CycleAnswer s s.advance.tick ⟨.unknown op, s.st == 1⟩
  /-- An instruction that completed (R84, R85). -/
  | executed {op : Word} {i : Instr} {u : State} (h : s.fault = none) (hf : s.fetch = .ok op) (hd : decode op = .instr i)
    (he : exec i s.advance = .next u) (hu : Completes i s.advance u) : CycleAnswer s u.tick ⟨.ok, u.soundTick⟩

theorem cycle_answer (s : State) : ∃ t r, cycle s = .next (t, r) ∧ CycleAnswer s t r := by
  cases h : s.fault with
  | some f => exact ⟨_, _, cycle_faulted h, .stuck h⟩
  | none =>
    cases hf : s.fetch with
    | error f => exact ⟨_, _, cycle_fetch_error h hf, .undone h f⟩
    | ok op =>
      cases hd : decode op with
      | unknown w =>
        obtain rfl := eq_of_decode_unknown hd
        exact ⟨_, _, cycle_unknown h hf hd, .unknown h hf hd⟩
      | instr i =>
        obtain ⟨u, he, hres⟩ := exec_result i s.advance
        cases hres with
        | raised f =>
          refine ⟨_, _, ?_, .undone h f⟩
          rw [cycle_instr h hf hd, he, ← takeFault_advance]
          exact congrArg Host.Outcome.next (endCycle_raised rfl)
        | completed hu =>
          exact ⟨_, _, cycle_instr_completed h hf hd he (hu.fault_eq.trans h), .executed h hf hd he hu⟩

theorem cycleAnswer_of_cycle {s t : State} {r : CycleResult} (h : cycle s = .next (t, r)) : CycleAnswer s t r := by
  obtain ⟨t', r', hc, hans⟩ := cycle_answer s
  rw [h] at hc
  cases hc
  exact hans

/-- A step answers the state of a cycle. -/
theorem cycleAnswer_of_step {s t : State} (h : step s = .next t) : ∃ r, CycleAnswer s t r := by
  obtain ⟨t', r, hc, hans⟩ := cycle_answer s
  rw [step_of_cycle hc] at h
  cases h
  exact ⟨r, hans⟩

/-! ### Answers and errors -/

/-- Settles O12: in each case a cycle answers a next state (`cycle_answer`). -/
theorem everyCycleAnswersANextState : Obligations.EveryCycleAnswersANextState := by
  intro s
  obtain ⟨t, r, hc, -⟩ := cycle_answer s
  exact ⟨t, r, hc, step_of_cycle hc⟩

/-- Settles O13: of the cases of a cycle that starts with no error, only the undone one ends with an error. -/
theorem raisingCycleIsUndone : Obligations.RaisingCycleIsUndone := by
  intro s t r f hs hc ht
  cases cycleAnswer_of_cycle hc with
  | stuck h => exact absurd (hs.symm.trans h) (Option.some_ne_none _).symm
  | undone _ g =>
    cases ht
    exact ⟨rfl, rfl⟩
  | unknown => exact absurd (hs.symm.trans ht) (Option.some_ne_none f).symm
  | executed _ _ _ _ hu => exact absurd (hs.symm.trans (hu.fault_eq.symm.trans ht)) (Option.some_ne_none f).symm

/-- A cycle leaves a faulted machine as it is, and so does any number of them. -/
theorem hostRun_replicate_cycle_faulted {s : State} {f : Fault} (h : s.fault = some f) (n : Nat) :
    hostRun (List.replicate n .cycle) s = .next s := by
  induction n with
  | zero => rfl
  | succ n ih =>
    simp only [List.replicate_succ, hostRun, hostMove, step_of_cycle (cycle_faulted h)]
    exact ih

/-- Settles O14: by induction on the number of cycles, each of which answers the same state. -/
theorem faultedMachineDoesNotChange : Obligations.FaultedMachineDoesNotChange := fun _ _ h =>
  ⟨cycle_faulted h, hostRun_replicate_cycle_faulted h⟩

/-- Settles O8: memory ends at 0xFFF, so the fetch fails, and a failed fetch ends the cycle. -/
theorem fetchErrorEndsTheCycle : Obligations.FetchErrorEndsTheCycle := fun s hs hpc =>
  ⟨_, fetch_error s hpc, cycle_fetch_error hs (fetch_error s hpc)⟩

theorem step_of_exec {s u : State} {op : Word} {i : Instr} (h : s.fault = none) (hf : s.fetch = .ok op)
    (hd : decode op = .instr i) (he : exec i s.advance = .next u) : step s = .next (endCycle u).1 := by
  simp only [step, cycle_instr h hf hd, he, stateOf]

/-- Settles O6: the fetched word is the two bytes joined, so the cycle runs `exec` and ends in `endCycle`, which ticks
unless an error is recorded. -/
theorem stepRunsTheDecodedInstruction : Obligations.StepRunsTheDecodedInstruction := by
  intro s i hs hpc hd
  obtain ⟨u, he, -⟩ := exec_result i s.advance
  have he' : exec i { s with pc := s.pc + 2 } = .next u := he
  rw [step_of_exec hs (fetch_ok s hpc) hd he, he']
  cases hu : u.fault with
  | some f => simp [endCycle_raised hu, hu]
  | none => simp [endCycle_completed hu, hu]

/-! ### Outputs -/

/-- A sound tick comes with the tick that takes ST to 0 (R223). -/
theorem tickDown_of_beq_one {b : Byte} (h : (b == 1) = true) : tickDown b = 0 := by
  rw [beq_iff_eq.mp h]
  rfl

/-- Settles O9: the cycle of an unknown word is its advance and a tick (`cycle_unknown`, `tickDown_toNat`). -/
theorem unknownWordIsAReportedNoOp : Obligations.UnknownWordIsAReportedNoOp := by
  intro s op hs hf hop
  have hd : decode op = .unknown op := (decoderAgreesWithOpcodeTable op).2 hop
  refine ⟨_, cycle_unknown hs hf hd, rfl, tickDown_toNat _, tickDown_toNat _, ?frame⟩
  case frame => exact (sameBut_jump s (s.pc + 2)).trans (sameBut_tick s.advance)

/-- Settles O11: the status of each case of a cycle; a sound tick needs ST = 1 before the tick, which leaves 0. -/
theorem cycleReportsItsStatus : Obligations.CycleReportsItsStatus := by
  intro s t r op hs hf hc
  cases cycleAnswer_of_cycle hc with
  | stuck h => exact absurd (hs.symm.trans h) (Option.some_ne_none _).symm
  | undone _ f => exact ⟨rfl, fun h => absurd h Bool.false_ne_true⟩
  | unknown _ hf' hd =>
    cases hf.symm.trans hf'
    refine ⟨?status, fun htick => ⟨hs, tickDown_of_beq_one htick⟩⟩
    case status => simp [hs, hd]
  | @executed _ i u _ hf' hd _ hu =>
    cases hf.symm.trans hf'
    have hfault : u.fault = none := hu.fault_eq.trans hs
    refine ⟨?status, fun htick => ⟨hfault, tickDown_of_beq_one htick⟩⟩
    case status => simp [hfault, hd]

/-- Settles O19: in every case of a cycle the keypad is as it was. -/
theorem stepNeverChangesTheKeypad : Obligations.StepNeverChangesTheKeypad := by
  intro s t h
  obtain ⟨r, hans⟩ := cycleAnswer_of_step h
  cases hans with
  | stuck | undone | unknown => exact fun _ => rfl
  | executed _ _ _ _ hu => exact hu.keyDown_eq

end Sys2Proof.Machine
end

section
/-! PROOFS. The invariants: memory in canonical form (log 18), and PC and the stack slots in range (10_state.md R26), kept
by every step and by every move of the host (60_exceptions.md R228, R229). -/

namespace Sys2Proof.Machine

/-! ### The step -/

/-- Settles O53: in every case of a cycle memory is as it was, or as a completed instruction left it. -/
theorem stepKeepsMemoryCanonical : Obligations.StepKeepsMemoryCanonical := by
  intro s t hm h
  obtain ⟨r, hans⟩ := cycleAnswer_of_step h
  cases hans with
  | stuck | undone | unknown => exact hm
  | executed _ _ _ _ hu => exact hu.canonical hm

/-- A fetch succeeds at an address below 0xFFF only (R81). -/
theorem pc_le_of_fetch_ok {s : State} {op : Word} (h : s.fetch = .ok op) : s.pc.toNat ≤ 0xFFE := by
  by_contra hpc
  rw [fetch_error s (by omega)] at h
  cases h

/-- The advance after a fetch that succeeded does not wrap. -/
theorem advance_pc_range {s : State} {op : Word} (h : s.fetch = .ok op) :
    2 ≤ s.advance.pc.toNat ∧ s.advance.pc.toNat ≤ 0x1000 := by
  have hpc := pc_le_of_fetch_ok h
  rw [State.advance_pc, BitVec.toNat_add, show (2 : Word).toNat = 2 from rfl]
  omega

/-- Where the advanced PC is at least 2 and at most 0x1000 and the stack slots are in range, so is every target. -/
theorem PcTarget.toNat_le {s : State} {w : Word} (h : PcTarget s w) (hlo : 2 ≤ s.pc.toNat) (hhi : s.pc.toNat ≤ 0x1000)
    (hstack : ∀ k : Fin 16, s.stack[k].toNat ≤ 0x1000) : w.toNat ≤ 0x10FE := by
  have htwo : (2 : Word).toNat = 2 := rfl
  cases h with
  | advanced => omega
  | skipped =>
    rw [BitVec.toNat_add, htwo]
    omega
  | rewound =>
    rw [State.instrAddr, BitVec.toNat_sub, htwo]
    omega
  | popped k => exact (hstack k).trans (by omega)
  | jumped h => exact h

/-- A completed instruction of a cycle whose fetch succeeded keeps PC and the stack slots in range. -/
theorem Completes.pcInRange {i : Instr} {s t : State} (h : Completes i s t) (hlo : 2 ≤ s.pc.toNat)
    (hhi : s.pc.toNat ≤ 0x1000) (hstack : ∀ k : Fin 16, s.stack[k].toNat ≤ 0x1000) : t.PcInRange := by
  refine ⟨h.pc.toNat_le hlo hhi hstack, fun k => ?_⟩
  rcases h.stack k with hk | hk
  · rw [hk]
    exact hstack k
  · rwa [hk]

/-- Settles O54: the fetch succeeds only up to 0xFFE, so the advanced PC is at most 0x1000, and from there the targets
of control transfer are in range. -/
theorem stepKeepsPcInRange : Obligations.StepKeepsPcInRange := by
  intro s t hs h
  obtain ⟨r, hans⟩ := cycleAnswer_of_step h
  cases hans with
  | stuck | undone => exact hs
  | unknown _ hf _ =>
    obtain ⟨-, hhi⟩ := advance_pc_range hf
    exact ⟨hhi.trans (by decide), hs.2⟩
  | executed _ hf _ _ hu =>
    obtain ⟨hlo, hhi⟩ := advance_pc_range hf
    exact hu.pcInRange hlo hhi hs.2

theorem step_keeps_inv {s t : State} (hs : s.Inv) (h : step s = .next t) : t.Inv :=
  ⟨stepKeepsMemoryCanonical s t hs.1 h, stepKeepsPcInRange s t hs.2 h⟩

/-! ### The host -/

theorem State.keySet_of_lt {s : State} {k : Nat} (h : k < 16) (pressed : Bool) :
    s.keySet k pressed = { s with keys := s.keys.set k pressed h } := dif_pos h

theorem State.keySet_of_ge {s : State} {k : Nat} (h : 0xF < k) (pressed : Bool) : s.keySet k pressed = s :=
  dif_neg (by omega)

/-- Setting a key changes the keypad alone (R226). -/
theorem State.keySet_eq (s : State) (k : Nat) (pressed : Bool) :
    s.keySet k pressed = { s with keys := (s.keySet k pressed).keys } := by
  by_cases h : k < 16
  · rw [State.keySet_of_lt h]
  · rw [State.keySet_of_ge (by omega)]

theorem keySet_keeps_inv {s : State} (hs : s.Inv) (k : Nat) (pressed : Bool) : (s.keySet k pressed).Inv := by
  rw [State.keySet_eq]
  exact hs

theorem hostMove_keeps_inv {m : HostMove} {s t : State} (hs : s.Inv) (h : hostMove m s = .next t) : t.Inv := by
  cases m with
  | keySet k pressed =>
    cases h
    exact keySet_keeps_inv hs k pressed
  | fbRead =>
    cases h
    exact hs
  | cycle => exact step_keeps_inv hs h

/-- Every move of the host leads to a next state (R78, R226, R227). -/
theorem hostMove_next (m : HostMove) (s : State) : ∃ t, hostMove m s = .next t := by
  cases m with
  | keySet | fbRead => exact ⟨_, rfl⟩
  | cycle =>
    obtain ⟨t, -, -, ht⟩ := everyCycleAnswersANextState s
    exact ⟨t, ht⟩

theorem hostRun_cons_next {m : HostMove} {ms : List HostMove} {s t : State} (h : hostMove m s = .next t) :
    hostRun (m :: ms) s = hostRun ms t := by simp only [hostRun, h]

/-- What every move of the host keeps, every run of the host keeps. -/
theorem hostRun_keeps {P : State → Prop} (hmove : ∀ m s t, P s → hostMove m s = .next t → P t) {ms : List HostMove}
    {s t : State} (hs : P s) (h : hostRun ms s = .next t) : P t := by
  induction ms generalizing s with
  | nil =>
    cases h
    exact hs
  | cons m ms ih =>
    obtain ⟨u, hu⟩ := hostMove_next m s
    rw [hostRun_cons_next hu] at h
    exact ih (hmove m s u hs hu) h

/-- Settles O55: each of the host's moves keeps the invariant, so a run of them does (`hostRun_keeps`). -/
theorem hostRunKeepsTheInvariant : Obligations.HostRunKeepsTheInvariant := fun _ _ _ hs h =>
  hostRun_keeps (fun _ _ _ => hostMove_keeps_inv) hs h

/-- Settles O56: at reset memory lists nothing, PC is 0x200 and the stack is zero. -/
theorem resetMeetsTheInvariant : Obligations.ResetMeetsTheInvariant := ⟨rfl, by decide, by decide⟩

/-! ### A recorded error stays -/

theorem hostMove_keeps_fault {f : Fault} {m : HostMove} {s t : State} (hs : s.fault = some f)
    (h : hostMove m s = .next t) : t.fault = some f := by
  cases m with
  | keySet k pressed =>
    cases h
    rwa [State.keySet_eq]
  | fbRead =>
    cases h
    exact hs
  | cycle =>
    rw [hostMove, step_of_cycle (cycle_faulted hs)] at h
    cases h
    exact hs

theorem hostRun_next (ms : List HostMove) (s : State) : ∃ t, hostRun ms s = .next t := by
  induction ms generalizing s with
  | nil => exact ⟨s, rfl⟩
  | cons m ms ih =>
    obtain ⟨u, hu⟩ := hostMove_next m s
    rw [hostRun_cons_next hu]
    exact ih u

theorem hostRun_append {ms ns : List HostMove} {s t : State} (h : hostRun ms s = .next t) :
    hostRun (ms ++ ns) s = hostRun ns t := by
  induction ms generalizing s with
  | nil =>
    cases h
    rfl
  | cons m ms ih =>
    obtain ⟨u, hu⟩ := hostMove_next m s
    rw [hostRun_cons_next hu] at h
    rw [List.cons_append, hostRun_cons_next hu, ih h]

/-- Settles O15: had the first part ended with an error, the rest would have kept it (`hostMove_keeps_fault`). -/
theorem fatalErrorIsNeverCleared : Obligations.FatalErrorIsNeverCleared := by
  rintro ms ns s ⟨u, hu, hsafe⟩
  obtain ⟨t, ht⟩ := hostRun_next ms s
  rw [hostRun_append ht] at hu
  refine ⟨t, ht, ?_⟩
  cases hf : t.fault with
  | none => exact hf
  | some f =>
    have hkept := hostRun_keeps (P := fun s => s.fault = some f) (fun _ _ _ => hostMove_keeps_fault) hf hu
    exact absurd (hsafe.symm.trans hkept) (Option.some_ne_none f).symm

end Sys2Proof.Machine
end

section
/-! PROOFS. The key wait over many cycles (45_keypad_timers.md R194, 60_exceptions.md R225). -/

namespace Sys2Proof.Machine

/-- A running machine at an `Fx0A` with no key down. -/
structure WaitsForKey (x : Reg) (s : State) : Prop where
  running : s.fault = none
  pc_le : s.pc.toNat ≤ 0xFFE
  decoded : decodeBytes (s.byteAt s.pc.toNat) (s.byteAt (s.pc.toNat + 1)) = .instr (.ldVxK x)
  released : ∀ k, s.keyDown k = false

/-- A waiting cycle takes the PC back and ticks (R194, decision D29). -/
theorem WaitsForKey.step_eq {x : Reg} {s : State} (h : WaitsForKey x s) : step s = .next s.tick := by
  have hnone : s.advance.anyPressed = none := (anyPressedIsTheLowestKey s.advance).1.mpr h.released
  have hback : s.advance.jump s.advance.instrAddr = s := by simp [State.jump, State.advance, State.instrAddr]
  have hexec : exec (.ldVxK x) s.advance = .next s := (execLdVxK_of_none hnone x).trans (congrArg _ hback)
  rw [step_of_exec h.running (fetch_ok s h.pc_le) h.decoded hexec, endCycle_completed h.running]

theorem WaitsForKey.tick {x : Reg} {s : State} (h : WaitsForKey x s) : WaitsForKey x s.tick :=
  ⟨h.running, h.pc_le, h.decoded, h.released⟩

/-- A timer that ticks once and then falls by `n` has fallen by `n + 1`. -/
theorem tickDown_sub (b : Byte) (n : Nat) : (tickDown b).toNat - n = b.toNat - (n + 1) := by
  rw [tickDown_toNat]
  omega

/-- Settles O52: by induction on the number of cycles, each of which is a tick (`WaitsForKey.step_eq`). -/
theorem waitingForAKeyOnlyTicks : Obligations.WaitingForAKeyOnlyTicks := by
  intro n x s hrun hpc hd hkeys
  have hwait : WaitsForKey x s := ⟨hrun, hpc, hd, hkeys⟩
  clear hrun hpc hd hkeys
  induction n generalizing s with
  | zero => simp [hostRun]
  | succ n ih =>
    rw [List.replicate_succ, hostRun_cons_next (show hostMove .cycle s = .next s.tick from hwait.step_eq),
      ih s.tick hwait.tick]
    simp only [State.tick_dt, State.tick_st, tickDown_sub]
    rfl

end Sys2Proof.Machine
end

section
/-! PROOFS. Reset, the loader and the keypad write port (70_reset_and_hazards.md R240, R243; 60_exceptions.md R226). -/

namespace Sys2Proof.Machine

/-- An address that memory does not list reads as the font table, and as 0 beyond it (10_state.md R45). -/
theorem Memory.unlisted_eq_dite (a : Nat) :
    Memory.unlisted a = if h : a < Config.font.length then Config.font[a] else 0 := by
  by_cases h : a < Config.font.length
  · rw [dif_pos h]
    exact List.getD_eq_getElem _ _ h
  · rw [dif_neg h]
    exact List.getD_eq_default _ _ (not_lt.mp h)

/-- Settles O57: reset memory lists nothing, so every address reads as unlisted, and the vectors are constant. -/
theorem resetLeavesTheSpecValues : Obligations.ResetLeavesTheSpecValues := by
  refine ⟨Memory.unlisted_eq_dite, by decide, fun r => ?regs, rfl, rfl, fun k => ?stack, rfl, rfl, rfl,
    cellOf_replicate_false, fun k => ?keys, rfl⟩
  case regs => simp [State.reg, State.reset]
  case stack => simp [State.reset]
  case keys => simp [State.keyDown, State.reset]

/-- A program that the loader's length test lets through is placed as a block write would place it. -/
theorem State.load_of_writeBlock {s t : State} {rom : List Byte} (hlen : rom.length ≤ 3584)
    (hw : s.writeBlock Config.progBase rom = .ok t) : s.load rom = .ok t := by
  rw [(writeBlock_cases hw).1]
  exact if_pos hlen

/-- Settles O58: the length test of the loader keeps the program inside memory, where a block write puts each byte at
its address and keeps the canonical form. -/
theorem loaderPlacesOrRejects : Obligations.LoaderPlacesOrRejects := by
  refine fun rom s hm => ⟨fun hlen => ?placed, fun hlen => ?rejected⟩
  case placed =>
    have hfits : Config.progBase + rom.length ≤ 0x1000 := by simp only [Config.progBase]; omega
    obtain ⟨t, hw, hin, hout, hframe, hcan⟩ := writeBlock_spec hm hfits
    exact ⟨t, State.load_of_writeBlock hlen hw, hcan, hin, hout, hframe⟩
  case rejected => exact if_neg (by simp only [Config.maxRom]; omega)

/-- Settles O59: a key number up to 0xF is an index of the keypad, and another one is refused. -/
theorem keySetWritesOneKey : Obligations.KeySetWritesOneKey := by
  refine fun s pressed => ⟨fun k => ?_, fun k hk => State.keySet_of_ge hk pressed⟩
  rw [State.keySet_of_lt k.isLt]
  refine ⟨?same, fun j hj => ?other, sameBut_keys s _⟩
  case same => simp [State.keyDown]
  case other => exact Vector.getElem_set_ne k.isLt j.isLt fun e => hj (Fin.ext e.symm)

end Sys2Proof.Machine
end
